-- ==== Sys2Proof/Word.lean ====
section
/-! DEFINITION. The machine's word types (spec 00_scope.md R3 to R5): XLEN = 16, NREGS = 8, CCLEN = 3. -/

namespace Sys2Proof

/-- A register, memory word, address or instruction word: a 16-bit pattern (R5).  `+` on it is addition
modulo `2^16`. -/
abbrev Word := BitVec 16

/-- One character of the output sink (44_trap.md R123). -/
abbrev Byte := BitVec 8

/-- A general-register index, 0 to 7 (10_state.md R10, R12). -/
abbrev Reg := Fin 8

/-- The number of addresses an address value can name (R3, ADDR_SPACE). -/
def addressSpace : Nat := 65536

end Sys2Proof
end

