-- ==== Sys2Proof/Config.lean ====
section
/-! DEFINITION. The implementation parameters of spec 00_scope.md R3, as a configuration.  The decided values
are `Sys2Proof.config` in Machine/Parameters.lean. -/

namespace Sys2Proof

/-- The sixteen opcode classes (30_encoding.md R52). -/
inductive OpClass where
  | br | add | ld | st | jsr | and | ldr | str | rti | not | ldi | sti | jmp | res | lea | trap
  deriving DecidableEq, Repr

/-- The eight trap services (44_trap.md R121). -/
inductive Service where
  | getc | out | puts | inChar | putsp | halt | inu16 | outu16
  deriving DecidableEq, Repr

/-- The eight services, in the order of the table of R121. -/
def allServices : List Service :=
  [.getc, .out, .puts, .inChar, .putsp, .halt, .inu16, .outu16]

/-- The parameters of 00_scope.md R3 that are not widths of types. -/
structure Config where
  /-- MEM_WORDS: the number of words the backing store holds. -/
  memWords : Nat
  /-- PC_RESET: the program counter after reset. -/
  pcReset : Word
  /-- OPMAP: which 4-bit value selects which class (R52). -/
  opmap : BitVec 4 → OpClass
  /-- OPMAP read the other way. -/
  opcodeOf : OpClass → BitVec 4
  /-- TRAPVEC: the vector of each service (R121). -/
  trapvec : Service → Word
  /-- TRAPVEC_WIDTH: the number of low bits the trap vector is sign-extended from. -/
  trapvecWidth : Nat
  /-- PUTS_IMPLEMENTED. -/
  putsImplemented : Bool
  /-- PUTSP_IMPLEMENTED. -/
  putspImplemented : Bool
  /-- IN_UNIT_BITS: the width of one unit the input source delivers. -/
  inUnitBits : Nat

/-- What R3, R52 and R121 ask of a configuration: OPMAP is a bijection, TRAPVEC is injective, and the store is no
larger than the address space. -/
def Config.wf (c : Config) : Prop :=
  (∀ b, c.opcodeOf (c.opmap b) = b) ∧ (∀ k, c.opmap (c.opcodeOf k) = k) ∧
    (∀ a b, c.trapvec a = c.trapvec b → a = b) ∧ c.memWords ≤ addressSpace

end Sys2Proof
end

