-- ==== Sys2Proof/Machine/Parameters.lean ====
section
/-! DEFINITION. The decided values of the parameters (spec 00_scope.md R3, 92_eei_decisions.md D1 to D9). -/

namespace Sys2Proof

/-- OPMAP as R52 decides it.  UNVERIFIED (log entry 1): decision D1, from general knowledge. -/
def opmapTable (b : BitVec 4) : OpClass :=
  match b.toNat with
  | 0 => .br | 1 => .add | 2 => .ld | 3 => .st | 4 => .jsr | 5 => .and | 6 => .ldr | 7 => .str
  | 8 => .rti | 9 => .not | 10 => .ldi | 11 => .sti | 12 => .jmp | 13 => .res | 14 => .lea | _ => .trap

/-- The same table from the class to its number (R52). -/
def opcodeTable : OpClass → BitVec 4
  | .br => 0 | .add => 1 | .ld => 2 | .st => 3 | .jsr => 4 | .and => 5 | .ldr => 6 | .str => 7
  | .rti => 8 | .not => 9 | .ldi => 10 | .sti => 11 | .jmp => 12 | .res => 13 | .lea => 14 | .trap => 15

/-- TRAPVEC as 44_trap.md R121 decides it.  UNVERIFIED (log entry 1): decision D2, from general knowledge. -/
def trapvecTable : Service → Word
  | .getc => 0x20 | .out => 0x21 | .puts => 0x22 | .inChar => 0x23
  | .putsp => 0x24 | .halt => 0x25 | .inu16 => 0x26 | .outu16 => 0x27

/-- The configuration of this machine (R3; decisions D1 to D9, log entries 1 and 2). -/
def config : Config where
  memWords := 65536
  pcReset := 0x3000
  opmap := opmapTable
  opcodeOf := opcodeTable
  trapvec := trapvecTable
  trapvecWidth := 7
  putsImplemented := true
  putspImplemented := true
  inUnitBits := 16

/-- `TRAPVEC^-1`: the service a vector selects, if any (R121, R124). -/
def serviceOf (c : Config) (vector : Word) : Option Service :=
  allServices.find? (fun t => c.trapvec t == vector)

end Sys2Proof
end

