-- ==== Sys2Proof/Syntax.lean ====
section
/-! DEFINITION. The instruction set: one constructor per row of spec/opcode_table.json (30_encoding.md R52, R57).
An instruction holds the fields its class reads and no unread bit (R59). -/

namespace Sys2Proof

/-- An instruction.  Immediates and offsets are the raw fields, sign-extended by the machine (R58); the vector of
`trap` is the extracted 16-bit value (44_trap.md R120). -/
inductive Instr where
  /-- BR (R111): condition mask {Negative, Zero, Positive}, offset9. -/
  | br (cond : BitVec 3) (offset : BitVec 9)
  /-- ADD, register form (R86). -/
  | addReg (dr sr1 sr2 : Reg)
  /-- ADD, immediate form (R87). -/
  | addImm (dr sr1 : Reg) (imm : BitVec 5)
  /-- LD (R96). -/
  | ld (dr : Reg) (offset : BitVec 9)
  /-- ST (R100); the field DR names the register stored. -/
  | st (sr : Reg) (offset : BitVec 9)
  /-- JSR, long-immediate form (R113). -/
  | jsr (offset : BitVec 11)
  /-- JSR, register form (R114). -/
  | jsrr (base : Reg)
  /-- AND, register form (R88). -/
  | andReg (dr sr1 sr2 : Reg)
  /-- AND, immediate form (R89). -/
  | andImm (dr sr1 : Reg) (imm : BitVec 5)
  /-- LDR (R98). -/
  | ldr (dr base : Reg) (offset : BitVec 6)
  /-- STR (R102). -/
  | str (sr base : Reg) (offset : BitVec 6)
  /-- RTI, the unimplemented "return from interrupt" class (R76). -/
  | rti
  /-- NOT (R90). -/
  | not (dr sr1 : Reg)
  /-- LDI (R97). -/
  | ldi (dr : Reg) (offset : BitVec 9)
  /-- STI (R101). -/
  | sti (sr : Reg) (offset : BitVec 9)
  /-- JMP (R112). -/
  | jmp (base : Reg)
  /-- RES, the reserved class (R77). -/
  | res
  /-- LEA (R99). -/
  | lea (dr : Reg) (offset : BitVec 9)
  /-- TRAP as the table's class row: the decoder answers it for every vector that selects no service (R124, R133). -/
  | trap (vector : Word)
  /-- TRAP GETC (R125). -/
  | trapGetc
  /-- TRAP OUT (R126). -/
  | trapOut
  /-- TRAP PUTS (R127). -/
  | trapPuts
  /-- TRAP IN (R128). -/
  | trapIn
  /-- TRAP PUTSP (R129). -/
  | trapPutsp
  /-- TRAP HALT (R130). -/
  | trapHalt
  /-- TRAP INU16 (R131). -/
  | trapInu16
  /-- TRAP OUTU16 (R132). -/
  | trapOutu16
  deriving DecidableEq, Repr

/-- The opcode class of an instruction (R52). -/
def Instr.opClass : Instr → OpClass
  | .br _ _ => .br
  | .addReg _ _ _ | .addImm _ _ _ => .add
  | .ld _ _ => .ld
  | .st _ _ => .st
  | .jsr _ | .jsrr _ => .jsr
  | .andReg _ _ _ | .andImm _ _ _ => .and
  | .ldr _ _ _ => .ldr
  | .str _ _ _ => .str
  | .rti => .rti
  | .not _ _ => .not
  | .ldi _ _ => .ldi
  | .sti _ _ => .sti
  | .jmp _ => .jmp
  | .res => .res
  | .lea _ _ => .lea
  | .trap _ | .trapGetc | .trapOut | .trapPuts | .trapIn | .trapPutsp | .trapHalt | .trapInu16 | .trapOutu16 => .trap

end Sys2Proof
end

