-- ==== Sys2Proof/WellFormed.lean ====
section
/-! DEFINITION. Well-formed instructions: those that some instruction word encodes.  The field types admit only values
the encoding has, so the only checks are those of the TRAP class row. -/

namespace Sys2Proof

/-- A 16-bit value a trap vector field can give: the sign extension of its own low TRAPVEC_WIDTH bits (44_trap.md R120). -/
def vectorInRange (vector : Word) : Bool :=
  (vector.extractLsb' 0 config.trapvecWidth).signExtend 16 == vector

/-- The class row TRAP stands for the words that match no service row (44_trap.md R121, R133): its vector must be
extractable and must select no service.  Every other instruction is well formed (30_encoding.md R59). -/
def Instr.wellFormed : Instr → Bool
  | .trap vector => vectorInRange vector && (serviceOf config vector).isNone
  | .br _ _ | .addReg _ _ _ | .addImm _ _ _ | .ld _ _ | .st _ _ | .jsr _ | .jsrr _ | .andReg _ _ _ | .andImm _ _ _
  | .ldr _ _ _ | .str _ _ _ | .rti | .not _ _ | .ldi _ _ | .sti _ _ | .jmp _ | .res | .lea _ _
  | .trapGetc | .trapOut | .trapPuts | .trapIn | .trapPutsp | .trapHalt | .trapInu16 | .trapOutu16 => true

end Sys2Proof
end

