-- ==== Sys2Proof/Decode.lean ====
section
/-! DEFINITION. The bit-field decoder of 30_encoding.md R46 to R56, the decoder of instruction words (total: every one
of the 65536 words has an instruction, R59), and the encoder of the canonical words (R57, R62). -/

namespace Sys2Proof

/-! ### Extension of fields -/

/-- `sext_16` (00_scope.md section 5): copy the top bit of a field into all higher bits. -/
def sext16 {w : Nat} (v : BitVec w) : Word := v.signExtend 16

/-- `zext_16` (00_scope.md section 5): zeros above a field. -/
def zext16 {w : Nat} (v : BitVec w) : Word := v.setWidth 16

/-! ### The decoder functions -/

/-- R46. -/
def destReg (op : Word) : Reg := (op.extractLsb' 9 3).toFin

/-- R47. -/
def srcReg1 (op : Word) : Reg := (op.extractLsb' 6 3).toFin

/-- R48. -/
def srcReg2 (op : Word) : Reg := (op.extractLsb' 0 3).toFin

/-- `op[width-1:0]`: the raw immediate or offset field of a class (R58). -/
def lowField (op : Word) (width : Nat) : BitVec width := op.extractLsb' 0 width

/-- R49: the low `width` bits of `op`, zeros above. -/
def unsignedImm (op : Word) (width : Nat) : Word := zext16 (lowField op width)

/-- R50: the low `width` bits of `op`, sign-extended.  Its domain is width 1 to 15 (log entry 12). -/
def signExtend (op : Word) (width : Nat) : Word := sext16 (lowField op width)

/-- R51. -/
def opcode (op : Word) : BitVec 4 := op.extractLsb' 12 4

/-- R53. -/
def immModeFlag (op : Word) : Bool := op.getLsbD 5

/-- R54. -/
def longImmFlag (op : Word) : Bool := op.getLsbD 11

/-- R55. -/
def condField (op : Word) : BitVec 3 := op.extractLsb' 9 3

/-- R56, R120: the trap vector. -/
def trapVector (op : Word) : Word := signExtend op config.trapvecWidth

/-! ### The decoder -/

/-- The instruction of a TRAP word with this vector (R121, R124). -/
def decodeTrap (vector : Word) : Instr :=
  match serviceOf config vector with
  | some .getc => .trapGetc
  | some .out => .trapOut
  | some .puts => .trapPuts
  | some .inChar => .trapIn
  | some .putsp => .trapPutsp
  | some .halt => .trapHalt
  | some .inu16 => .trapInu16
  | some .outu16 => .trapOutu16
  | none => .trap vector

/-- Decode one instruction word (40_execution_cycle.md R73, R74; formats of R57).  Total, with no rejection: the illegal
words of R60 decode by name to `rti`, `res` and `trap`, and executing them halts. -/
def decode (op : Word) : Instr :=
  match config.opmap (opcode op) with
  | .br => .br (condField op) (lowField op 9)
  | .add =>
    if immModeFlag op then .addImm (destReg op) (srcReg1 op) (lowField op 5)
    else .addReg (destReg op) (srcReg1 op) (srcReg2 op)
  | .ld => .ld (destReg op) (lowField op 9)
  | .st => .st (destReg op) (lowField op 9)
  | .jsr => if longImmFlag op then .jsr (lowField op 11) else .jsrr (srcReg1 op)
  | .and =>
    if immModeFlag op then .andImm (destReg op) (srcReg1 op) (lowField op 5)
    else .andReg (destReg op) (srcReg1 op) (srcReg2 op)
  | .ldr => .ldr (destReg op) (srcReg1 op) (lowField op 6)
  | .str => .str (destReg op) (srcReg1 op) (lowField op 6)
  | .rti => .rti
  | .not => .not (destReg op) (srcReg1 op)
  | .ldi => .ldi (destReg op) (lowField op 9)
  | .sti => .sti (destReg op) (lowField op 9)
  | .jmp => .jmp (srcReg1 op)
  | .res => .res
  | .lea => .lea (destReg op) (lowField op 9)
  | .trap => decodeTrap (trapVector op)

/-- The instruction the decoder reads from an opcode-table word: `nbits` is how many bits the table gives the row (one
word at most, R45) and the bits above them are 0. -/
def decodeTableWord (nbits w : Nat) : Option Instr :=
  if nbits ≤ 16 ∧ w < 2 ^ nbits then some (decode (BitVec.ofNat 16 w)) else none

/-! ### The encoder -/

/-- The 3-bit field of a register index. -/
def regField (r : Reg) : BitVec 3 := BitVec.ofFin r

/-- A field placed in a word, its lowest bit at `lo`. -/
def place {w : Nat} (v : BitVec w) (lo : Nat) : Word := zext16 v <<< lo

/-- The opcode field of a class (R51, R52). -/
def opcodeField (c : OpClass) : Word := place (config.opcodeOf c) 12

/-- The word of a TRAP with this vector: unread bits 11 to 7 are 0 (R57). -/
def encodeTrap (vector : Word) : Word := opcodeField .trap ||| unsignedImm vector config.trapvecWidth

/-- The canonical word of a well-formed instruction: the formats of R57 with every unread bit 0 (R62). -/
def encode : Instr → Word
  | .br cond offset => opcodeField .br ||| place cond 9 ||| place offset 0
  | .addReg dr sr1 sr2 =>
    opcodeField .add ||| place (regField dr) 9 ||| place (regField sr1) 6 ||| place (regField sr2) 0
  | .addImm dr sr1 imm =>
    opcodeField .add ||| place (regField dr) 9 ||| place (regField sr1) 6 ||| place 1#1 5 ||| place imm 0
  | .ld dr offset => opcodeField .ld ||| place (regField dr) 9 ||| place offset 0
  | .st sr offset => opcodeField .st ||| place (regField sr) 9 ||| place offset 0
  | .jsr offset => opcodeField .jsr ||| place 1#1 11 ||| place offset 0
  | .jsrr base => opcodeField .jsr ||| place (regField base) 6
  | .andReg dr sr1 sr2 =>
    opcodeField .and ||| place (regField dr) 9 ||| place (regField sr1) 6 ||| place (regField sr2) 0
  | .andImm dr sr1 imm =>
    opcodeField .and ||| place (regField dr) 9 ||| place (regField sr1) 6 ||| place 1#1 5 ||| place imm 0
  | .ldr dr base offset =>
    opcodeField .ldr ||| place (regField dr) 9 ||| place (regField base) 6 ||| place offset 0
  | .str sr base offset =>
    opcodeField .str ||| place (regField sr) 9 ||| place (regField base) 6 ||| place offset 0
  | .rti => opcodeField .rti
  | .not dr sr1 => opcodeField .not ||| place (regField dr) 9 ||| place (regField sr1) 6
  | .ldi dr offset => opcodeField .ldi ||| place (regField dr) 9 ||| place offset 0
  | .sti sr offset => opcodeField .sti ||| place (regField sr) 9 ||| place offset 0
  | .jmp base => opcodeField .jmp ||| place (regField base) 6
  | .res => opcodeField .res
  | .lea dr offset => opcodeField .lea ||| place (regField dr) 9 ||| place offset 0
  | .trap vector => encodeTrap vector
  | .trapGetc => encodeTrap (config.trapvec .getc)
  | .trapOut => encodeTrap (config.trapvec .out)
  | .trapPuts => encodeTrap (config.trapvec .puts)
  | .trapIn => encodeTrap (config.trapvec .inChar)
  | .trapPutsp => encodeTrap (config.trapvec .putsp)
  | .trapHalt => encodeTrap (config.trapvec .halt)
  | .trapInu16 => encodeTrap (config.trapvec .inu16)
  | .trapOutu16 => encodeTrap (config.trapvec .outu16)

/-- The bits of a word that the decoder functions of an instruction's form read; the others are the "x" bits of R57. -/
def readBits : Instr → Word
  | .br _ _ | .addImm _ _ _ | .ld _ _ | .st _ _ | .jsr _ | .andImm _ _ _ | .ldr _ _ _ | .str _ _ _ | .ldi _ _
  | .sti _ _ | .lea _ _ => 0xFFFF
  | .addReg _ _ _ | .andReg _ _ _ => 0xFFE7
  | .jsrr _ => 0xF9C0
  | .rti | .res => 0xF000
  | .not _ _ => 0xFFC0
  | .jmp _ => 0xF1C0
  | .trap _ | .trapGetc | .trapOut | .trapPuts | .trapIn | .trapPutsp | .trapHalt | .trapInu16 | .trapOutu16 => 0xF07F

end Sys2Proof
end

