-- ==== Sys2Proof/Machine/State.lean ====
section
/-! DEFINITION. The machine state of spec 10_state.md, the environment's streams (R22), the reasons a step can stop, and
the state after reset (R24, 70_reset_and_hazards.md R160). -/

namespace Sys2Proof.Machine

/-- The run state (10_state.md R19). -/
inductive RunState where
  | running
  | halted
  | aborted
  deriving DecidableEq, Repr, Inhabited

/-- The reported reason (10_state.md R20). -/
inductive Reason where
  | none
  | haltTrap
  | unimplementedInstruction (opcode : BitVec 4)
  | unimplementedTrapVector (vector : Word)
  | inputExhausted
  | outOfBoundsMemoryAccess (address : Word)
  deriving DecidableEq, Repr, Inhabited

/-- One write to the output sink (44_trap.md R123): `OutChar` or `OutDec`. -/
inductive OutEvent where
  | char (c : Byte)
  | dec (v : Word)
  deriving DecidableEq, Repr

/-- One listed word of memory: its address and its contents.  A word is the smallest and only unit of access
(20_memory.md R30; log entry 3). -/
abbrev Cell := Nat × Word

/-- The store (10_state.md R21): the words that differ from what an unlisted address reads as, addresses strictly
rising (`Memory.wf`). -/
abbrev Memory := List Cell

/-- The whole state: the tuple of 10_state.md (`regs` to `reason`), then what the environment holds (R22, R161) and the
suspension of R79. -/
structure State where
  /-- `x[0]` to `x[7]` (R10). -/
  regs : Vector Word 8
  /-- The program counter (R13). -/
  pc : Word
  /-- The condition flags: bit 2 Negative, bit 1 Zero, bit 0 Positive (R15). -/
  cc : BitVec 3
  /-- The memory (R21). -/
  mem : Memory
  /-- The run state (R19). -/
  run : RunState
  /-- The reported reason (R20). -/
  reason : Reason
  /-- Whether the environment has given `Start` since reset (70_reset_and_hazards.md R161; log entry 5). -/
  started : Bool
  /-- The trap service the current step is suspended in, if any (40_execution_cycle.md R79, 70_reset_and_hazards.md R168;
  log entries 6 and 7). -/
  pending : Option Service
  /-- The units the input source has delivered and the machine has not consumed, next unit first (R22). -/
  input : List Word
  /-- Whether the input source is closed: with no unit left it then answers `Exhausted` (R22, 44_trap.md R122). -/
  inputClosed : Bool
  /-- The writes made to the output sink, oldest first (R22, 44_trap.md R123). -/
  output : List OutEvent
  deriving DecidableEq, Repr, Inhabited

/-- The reasons for which the machine stops with a fault. -/
inductive Fault where
  /-- Raised by `step` on a machine whose run state is Aborted: "a model treats an aborted machine as faulted"
  (60_exceptions.md R145).  Safe: nothing can be proved of what follows an abort. -/
  | aborted
  deriving DecidableEq, Repr

/-- The reasons for which a move has no meaning.  No instruction of this model is refused. -/
inductive Refusal where
  /-- Raised by `exec` for an instruction with no meaning yet; there is none.  Safe. -/
  | notModelled (mnemonic : String)
  /-- Raised by `hostLoad` after `Start`: the spec "gives such a load no meaning" (70_reset_and_hazards.md R162).  Safe. -/
  | loadAfterStart
  /-- Raised by `hostStart` when `Start` has been given: it comes "once after reset" (R164's table).  Safe. -/
  | alreadyStarted
  /-- Raised by `hostDeliver` once the source is closed and so "has no unit left" (44_trap.md R122).  Safe. -/
  | inputClosed
  deriving DecidableEq, Repr

/-- The outcome of a step, of an instruction and of a move of the environment. -/
abbrev Result := Host.Outcome State Fault Refusal

/-- The machine after reset (R24, R160), before `Start`.  The environment's part: nothing written; nothing delivered and
the source open (DESIGN CHOICE, log entry 8). -/
def State.reset : State where
  regs := Vector.replicate 8 0
  pc := config.pcReset
  cc := 0
  mem := []
  run := .running
  reason := .none
  started := false
  pending := none
  input := []
  inputClosed := false
  output := []

end Sys2Proof.Machine

namespace Sys2Proof

/-- FREE VALUE: what an aborted machine holds beside `run` and `reason`, "not defined by the source"
(60_exceptions.md R145), from the state and the address of the access.  Nothing is known of it (log entry 4). -/
opaque Config.afterAbort (address : Word) (s : Machine.State) : Machine.State

end Sys2Proof
end

