-- ==== Sys2Proof/Machine/Flags.lean ====
section
/-! DEFINITION. The condition flags: the masks of 10_state.md R15, `SetCC` of R17 and the test of BR. -/

namespace Sys2Proof.Machine

/-- N, Z and P as values of the flag register and as masks (R15). -/
def flagN : BitVec 3 := 0b100
def flagZ : BitVec 3 := 0b010
def flagP : BitVec 3 := 0b001

/-- The value `SetCC(v)` gives the flag register (R17). -/
def ccOf (v : Word) : BitVec 3 :=
  if v = 0 then flagZ else if v.getLsbD 15 then flagN else flagP

/-- `SetCC(v)` (R17). -/
def setCC (v : Word) (s : State) : State := { s with cc := ccOf v }

/-- The condition test of BR: `(cc & condField) != 0` (R15, 43_control.md R111). -/
def condTaken (cc cond : BitVec 3) : Bool := cc &&& cond != 0

/-- The flag register holds one of the four reachable values (R16). -/
def ccLegal (cc : BitVec 3) : Bool := cc == 0 || cc == flagN || cc == flagZ || cc == flagP

end Sys2Proof.Machine
end

