-- ==== Sys2Proof/Machine/Ops.lean ====
section
/-! DEFINITION. The shared operations on memory, registers and the run state (20_memory.md R30 to R33, 60_exceptions.md
R141, R145), the fetch (40_execution_cycle.md R72), and the two streams (44_trap.md R122, R123). -/

namespace Sys2Proof.Machine

/-! ### The store -/

/-- What an unlisted address reads as: memory is zero-filled at reset (10_state.md R24). -/
def Memory.unlisted : Word := 0

/-- The word at an address. -/
def Memory.read : Memory → Nat → Word
  | [], _ => Memory.unlisted
  | (b, w) :: m, a => if a = b then w else Memory.read m a

/-- Put a cell in its place among rising addresses. -/
def Memory.insert : Memory → Nat → Word → Memory
  | [], a, v => [(a, v)]
  | (b, w) :: m, a, v => if a < b then (a, v) :: (b, w) :: m else (b, w) :: Memory.insert m a v

/-- The store with `v` at address `a`; writing what an unlisted address reads as leaves the address unlisted. -/
def Memory.write (m : Memory) (a : Nat) (v : Word) : Memory :=
  let rest : Memory := m.filter (fun c => c.1 != a)
  if v = Memory.unlisted then rest else Memory.insert rest a v

/-- The canonical form: addresses strictly rising and inside the address space, no cell listing what an unlisted address
reads as. -/
abbrev Memory.wf (m : Memory) : Prop :=
  m.Pairwise (fun c d => c.1 < d.1) ∧ ∀ c ∈ m, c.1 < addressSpace ∧ c.2 ≠ Memory.unlisted

/-- `MemRead(addr, 1)` (20_memory.md R31); `none` where `addr >= MEM_WORDS` (R33). -/
def memRead (cfg : Config) (m : Memory) (addr : Word) : Option Word :=
  if addr.toNat < cfg.memWords then some (m.read addr.toNat) else none

/-- `MemWrite(addr, 1, v)` (R32); `none` where `addr >= MEM_WORDS` (R33). -/
def memWrite (cfg : Config) (m : Memory) (addr v : Word) : Option Memory :=
  if addr.toNat < cfg.memWords then some (m.write addr.toNat v) else none

/-- The word a 16-bit address holds, for statements and inspection. -/
def State.word (s : State) (addr : Word) : Word := s.mem.read addr.toNat

/-! ### Registers -/

/-- `x[r]` (10_state.md R10, R11). -/
def State.reg (s : State) (r : Reg) : Word := s.regs[r]

/-- `x[r] <- v`: no register is hardwired (R11). -/
def State.setReg (s : State) (r : Reg) (v : Word) : State := { s with regs := s.regs.set r v }

/-- Write a result and set the flags from it: `x[DR] <- v; SetCC(v)` (10_state.md R18). -/
def writeResult (dr : Reg) (v : Word) (s : State) : State := setCC v (s.setReg dr v)

/-! ### Leaving Running -/

/-- `raise E(info)`, the one way an instruction leaves Running (60_exceptions.md R141; R149: nothing is saved and nothing
is vectored to).  There is no return from it: only reset leaves Halted (R151, `hostReset`). -/
def raise (e : Reason) (s : State) : State := { s with run := .halted, reason := e }

/-- `abort OutOfBoundsMemoryAccess(addr)` (60_exceptions.md R145): `run` and `reason` are given, the machine's other state
is a free value (log entry 4), and the environment keeps what it holds. -/
def abort (addr : Word) (s : State) : State :=
  { Config.afterAbort addr s with
    run := .aborted, reason := .outOfBoundsMemoryAccess addr
    started := s.started, pending := none
    input := s.input, inputClosed := s.inputClosed, output := s.output }

/-- The step waits inside a trap service (40_execution_cycle.md R79, 70_reset_and_hazards.md R168). -/
def suspend (svc : Service) (s : State) : State := { s with pending := some svc }

/-! ### Accesses of an instruction -/

/-- Read a word and go on with it, or abort (R31, R33). -/
def readThen (cfg : Config) (addr : Word) (s : State) (k : Word → Result) : Result :=
  match memRead cfg s.mem addr with
  | some w => k w
  | none => .next (abort addr s)

/-- Write a word, or abort (R32, R33). -/
def store (cfg : Config) (addr v : Word) (s : State) : Result :=
  match memWrite cfg s.mem addr v with
  | some m => .next { s with mem := m }
  | none => .next (abort addr s)

/-- Load a word into a register and set the flags from it, or abort before either changes (42_data_movement.md R96). -/
def loadResult (cfg : Config) (dr : Reg) (addr : Word) (s : State) : Result :=
  readThen cfg addr s fun v => .next (writeResult dr v s)

/-- The fetch: read the word at `pc`, then advance `pc` modulo `2^16` (40_execution_cycle.md R72); an out-of-bounds fetch
aborts with nothing decoded. -/
def fetchThen (cfg : Config) (s : State) (k : Word → State → Result) : Result :=
  readThen cfg s.pc s fun word => k word { s with pc := s.pc + 1 }

/-! ### The streams -/

/-- What the input source answers (44_trap.md R122). -/
inductive InputAnswer where
  | unit (u : Word) (rest : List Word)
  | exhausted
  | waiting
  deriving DecidableEq, Repr

/-- `InputUnit()` (R122): the next unit, or `Exhausted`, or no answer yet (40_execution_cycle.md R79). -/
def inputUnit (s : State) : InputAnswer :=
  match s.input with
  | u :: rest => .unit u rest
  | [] => if s.inputClosed then .exhausted else .waiting

/-- Append writes to the output sink (R123: a write never blocks and never fails). -/
def emit (events : List OutEvent) (s : State) : State := { s with output := s.output ++ events }

/-- The low 8 bits of a value, as a character (44_trap.md R125, R126). -/
def lowByte (v : Word) : Byte := v.extractLsb' 0 8

/-- Bits 15 to 8 of a value, as a character (44_trap.md R129). -/
def highByte (v : Word) : Byte := v.extractLsb' 8 8

end Sys2Proof.Machine
end

