-- ==== Sys2Proof/Machine/Operands.lean ====
section
/-! DEFINITION. Operands and effective addresses (30_encoding.md R58, 41_operate.md R85, 42_data_movement.md R95).  In a
meaning `s.pc` is the incremented program counter (40_execution_cycle.md R72); every sum wraps (20_memory.md R38). -/

namespace Sys2Proof.Machine

/-- `imm5`, the immediate second operand of ADD and AND (R58, R85). -/
def immOperand (imm : BitVec 5) : Word := sext16 imm

/-- `pc + offset9` (R95). -/
def pcRelative (s : State) (offset : BitVec 9) : Word := s.pc + sext16 offset

/-- `pc + offset11` (43_control.md R113). -/
def pcRelativeLong (s : State) (offset : BitVec 11) : Word := s.pc + sext16 offset

/-- `x[SR1] + offset6` (R95). -/
def basePlus (s : State) (base : Reg) (offset : BitVec 6) : Word := s.reg base + sext16 offset

end Sys2Proof.Machine
end

