-- ==== Sys2Proof/Machine/Control.lean ====
section
/-! DEFINITION. BR, JMP, JSR in both forms (43_control.md) and the two unimplemented classes RTI and RES
(40_execution_cycle.md R76, R77). -/

namespace Sys2Proof.Machine

/-- `x[7] <- pc`: save the return address (R113, R114, R115). -/
def saveReturn (s : State) : State := s.setReg 7 s.pc

/-- R111. -/
def execBr (cond : BitVec 3) (offset : BitVec 9) (s : State) : Result :=
  .next (if condTaken s.cc cond then { s with pc := pcRelative s offset } else s)

/-- R112. -/
def execJmp (base : Reg) (s : State) : Result :=
  .next { s with pc := s.reg base }

/-- R113. -/
def execJsr (offset : BitVec 11) (s : State) : Result :=
  .next { saveReturn s with pc := pcRelativeLong s offset }

/-- R114: `x[7]` is written first, the base register is read after. -/
def execJsrr (base : Reg) (s : State) : Result :=
  .next { saveReturn s with pc := (saveReturn s).reg base }

/-- `raise UnimplementedInstruction(word[15:12])` (60_exceptions.md R142); the opcode value is the one OPMAP gives the
class. -/
def unimplemented (c : OpClass) (s : State) : Result :=
  .next (raise (.unimplementedInstruction (config.opcodeOf c)) s)

/-- R76. -/
def execRti (s : State) : Result := unimplemented .rti s

/-- R77. -/
def execRes (s : State) : Result := unimplemented .res s

end Sys2Proof.Machine
end

