-- ==== Sys2Proof/Machine/Move.lean ====
section
/-! DEFINITION. LD, LDI, LDR, LEA, ST, STI, STR (42_data_movement.md).  The six that access memory are written for any
MEM_WORDS (00_scope.md R3, decision D4), and run with the decided one. -/

namespace Sys2Proof.Machine

/-- R96, with any store. -/
def ldWith (cfg : Config) (dr : Reg) (offset : BitVec 9) (s : State) : Result :=
  loadResult cfg dr (pcRelative s offset) s

/-- R97, with any store: the pointer is read first, then the word it points to. -/
def ldiWith (cfg : Config) (dr : Reg) (offset : BitVec 9) (s : State) : Result :=
  readThen cfg (pcRelative s offset) s fun addr => loadResult cfg dr addr s

/-- R98, with any store. -/
def ldrWith (cfg : Config) (dr base : Reg) (offset : BitVec 6) (s : State) : Result :=
  loadResult cfg dr (basePlus s base offset) s

/-- R100, with any store. -/
def stWith (cfg : Config) (sr : Reg) (offset : BitVec 9) (s : State) : Result :=
  store cfg (pcRelative s offset) (s.reg sr) s

/-- R101, with any store: the pointer is read first. -/
def stiWith (cfg : Config) (sr : Reg) (offset : BitVec 9) (s : State) : Result :=
  readThen cfg (pcRelative s offset) s fun addr => store cfg addr (s.reg sr) s

/-- R102, with any store. -/
def strWith (cfg : Config) (sr base : Reg) (offset : BitVec 6) (s : State) : Result :=
  store cfg (basePlus s base offset) (s.reg sr) s

/-- R96. -/
def execLd (dr : Reg) (offset : BitVec 9) (s : State) : Result := ldWith config dr offset s

/-- R97. -/
def execLdi (dr : Reg) (offset : BitVec 9) (s : State) : Result := ldiWith config dr offset s

/-- R98. -/
def execLdr (dr base : Reg) (offset : BitVec 6) (s : State) : Result := ldrWith config dr base offset s

/-- R99: memory is not accessed. -/
def execLea (dr : Reg) (offset : BitVec 9) (s : State) : Result :=
  .next (writeResult dr (pcRelative s offset) s)

/-- R100. -/
def execSt (sr : Reg) (offset : BitVec 9) (s : State) : Result := stWith config sr offset s

/-- R101. -/
def execSti (sr : Reg) (offset : BitVec 9) (s : State) : Result := stiWith config sr offset s

/-- R102. -/
def execStr (sr base : Reg) (offset : BitVec 6) (s : State) : Result := strWith config sr base offset s

end Sys2Proof.Machine
end

