-- ==== Sys2Proof/Machine/Operate.lean ====
section
/-! DEFINITION. ADD, AND, NOT (41_operate.md).  Both operands are read before `x[DR]` is written (R85). -/

namespace Sys2Proof.Machine

/-- R86. -/
def execAddReg (dr sr1 sr2 : Reg) (s : State) : Result :=
  .next (writeResult dr (s.reg sr1 + s.reg sr2) s)

/-- R87. -/
def execAddImm (dr sr1 : Reg) (imm : BitVec 5) (s : State) : Result :=
  .next (writeResult dr (s.reg sr1 + immOperand imm) s)

/-- R88. -/
def execAndReg (dr sr1 sr2 : Reg) (s : State) : Result :=
  .next (writeResult dr (s.reg sr1 &&& s.reg sr2) s)

/-- R89. -/
def execAndImm (dr sr1 : Reg) (imm : BitVec 5) (s : State) : Result :=
  .next (writeResult dr (s.reg sr1 &&& immOperand imm) s)

/-- R90. -/
def execNot (dr sr1 : Reg) (s : State) : Result :=
  .next (writeResult dr (~~~ s.reg sr1) s)

end Sys2Proof.Machine
end

