-- ==== Sys2Proof/Machine/Trap.lean ====
section
/-! DEFINITION. TRAP and the trap subsystem (44_trap.md).  No service writes `pc`, `cc` or `x[7]` (R124). -/

namespace Sys2Proof.Machine

/-! ### Decimal text -/

/-- The ASCII digits of `n`, most significant first, no leading zeros, at most `fuel` of them (R123). -/
def decimalDigits : Nat → Nat → List Byte
  | 0, _ => []
  | fuel + 1, n =>
    if n < 10 then [BitVec.ofNat 8 (0x30 + n)]
    else decimalDigits fuel (n / 10) ++ [BitVec.ofNat 8 (0x30 + n % 10)]

/-- The character stream of one write (R123): a 16-bit value has at most five digits. -/
def eventBytes : OutEvent → List Byte
  | .char c => [c]
  | .dec v => decimalDigits 5 v.toNat

/-- The sink read as a character stream (R123). -/
def outputBytes (events : List OutEvent) : List Byte := events.flatMap eventBytes

/-! ### Input services -/

/-- A service that consumes one unit (R122): `k` is its effect on a unit; an exhausted source raises `InputExhausted`
(60_exceptions.md R144); with no answer the step waits (40_execution_cycle.md R79). -/
def consumeUnit (svc : Service) (k : Word → State → State) (s : State) : Result :=
  match inputUnit s with
  | .unit u rest => .next (k u { s with input := rest })
  | .exhausted => .next (raise .inputExhausted s)
  | .waiting => .next (suspend svc s)

/-- R125. -/
def serviceGetc (s : State) : Result :=
  consumeUnit .getc (fun u t => t.setReg 0 (zext16 (lowByte u))) s

/-- R128. -/
def serviceIn (s : State) : Result :=
  consumeUnit .inChar (fun u t => emit [.char (lowByte u)] (t.setReg 0 (zext16 (lowByte u)))) s

/-- R131. -/
def serviceInu16 (s : State) : Result :=
  consumeUnit .inu16 (fun u t => t.setReg 0 u) s

/-! ### String services -/

/-- How a scan of at most a given number of words ended, with what it wrote. -/
inductive StringScan where
  | ended (text : List OutEvent)
  | outOfBounds (text : List OutEvent) (addr : Word)
  | unended (text : List OutEvent)
  deriving DecidableEq, Repr

/-- Put what one word writes before what the rest of the scan writes. -/
def prependText (events : List OutEvent) : StringScan → StringScan
  | .ended text => .ended (events ++ text)
  | .outOfBounds text addr => .outOfBounds (events ++ text) addr
  | .unended text => .unended (events ++ text)

/-- The loop of PUTS and PUTSP (R127, R129) over at most `n` words from `addr`: `chars` is what a word writes; a whole word
`0x0000` ends the string; the address wraps. -/
def scanString (cfg : Config) (m : Memory) (chars : Word → List OutEvent) : Nat → Word → StringScan
  | 0, _ => .unended []
  | n + 1, addr =>
    match memRead cfg m addr with
    | none => .outOfBounds [] addr
    | some w => if w = 0 then .ended [] else prependText (chars w) (scanString cfg m chars n (addr + 1))

/-- What PUTS writes for one word (R127). -/
def putsChars (w : Word) : List OutEvent := [.char (lowByte w)]

/-- What PUTSP writes for one word (R129): bits 7 to 0, then bits 15 to 8 unless they are zero. -/
def putspChars (w : Word) : List OutEvent :=
  if highByte w = 0 then [.char (lowByte w)] else [.char (lowByte w), .char (highByte w)]

/-- A string service from `x[0]`.  One step scans at most the whole address space; where that holds no terminator the scan
is back at `x[0]` and the service goes on in the next step, without end (70_reset_and_hazards.md R168; log entry 7). -/
def writeString (cfg : Config) (svc : Service) (chars : Word → List OutEvent) (s : State) : Result :=
  match scanString cfg s.mem chars addressSpace (s.reg 0) with
  | .ended text => .next (emit text s)
  | .outOfBounds text addr => .next (abort addr (emit text s))
  | .unended text => .next (suspend svc (emit text s))

/-- R127; with PUTS_IMPLEMENTED = false it does nothing at all. -/
def servicePuts (cfg : Config) (s : State) : Result :=
  if cfg.putsImplemented then writeString cfg .puts putsChars s else .next s

/-- R129; with PUTSP_IMPLEMENTED = false it does nothing. -/
def servicePutsp (cfg : Config) (s : State) : Result :=
  if cfg.putspImplemented then writeString cfg .putsp putspChars s else .next s

/-! ### The other services -/

/-- R126. -/
def serviceOut (s : State) : Result := .next (emit [.char (lowByte (s.reg 0))] s)

/-- R130: the clean halt. -/
def serviceHalt (s : State) : Result := .next (raise .haltTrap s)

/-- R132. -/
def serviceOutu16 (s : State) : Result := .next (emit [.dec (s.reg 0)] s)

/-- R133. -/
def unknownVector (vector : Word) (s : State) : Result := .next (raise (.unimplementedTrapVector vector) s)

/-- The service of R124's case distinction. -/
def performService (cfg : Config) (svc : Service) (s : State) : Result :=
  match svc with
  | .getc => serviceGetc s
  | .out => serviceOut s
  | .puts => servicePuts cfg s
  | .inChar => serviceIn s
  | .putsp => servicePutsp cfg s
  | .halt => serviceHalt s
  | .inu16 => serviceInu16 s
  | .outu16 => serviceOutu16 s

/-- Go on with a suspended step (40_execution_cycle.md R79). -/
def resume (cfg : Config) (svc : Service) (s : State) : Result :=
  performService cfg svc { s with pending := none }

/-! ### The instructions -/

/-- R124, whole: a vector of a service selects it; the decoder gives this row only the vectors of R133. -/
def execTrap (vector : Word) (s : State) : Result :=
  match serviceOf config vector with
  | some svc => performService config svc s
  | none => unknownVector vector s

/-- R125. -/
def execTrapGetc (s : State) : Result := serviceGetc s

/-- R126. -/
def execTrapOut (s : State) : Result := serviceOut s

/-- R127. -/
def execTrapPuts (s : State) : Result := servicePuts config s

/-- R128. -/
def execTrapIn (s : State) : Result := serviceIn s

/-- R129. -/
def execTrapPutsp (s : State) : Result := servicePutsp config s

/-- R130. -/
def execTrapHalt (s : State) : Result := serviceHalt s

/-- R131. -/
def execTrapInu16 (s : State) : Result := serviceInu16 s

/-- R132. -/
def execTrapOutu16 (s : State) : Result := serviceOutu16 s

end Sys2Proof.Machine
end

