-- ==== Sys2Proof/Machine/Step.lean ====
section
/-! DEFINITION. The step of the control state machine (40_execution_cycle.md R70 to R75). -/

namespace Sys2Proof.Machine

/-- One step.  Running and started: fetch, decode, dispatch (R72 to R75), or go on with a suspended service (R79).
Before `Start` and once Halted no step is taken and nothing changes (R71, 70_reset_and_hazards.md R161; log entry 5).
An Aborted machine is faulted (60_exceptions.md R145). -/
def step (s : State) : Host.Outcome State Fault Refusal :=
  match s.run with
  | .halted => .next s
  | .aborted => .fault .aborted
  | .running =>
    if s.started then
      match s.pending with
      | some svc => resume config svc s
      | none => fetchThen config s fun word t => exec (decode word) t
    else .next s

/-- `s` with an instruction word where the next fetch reads it, ready for that fetch: Running, after `Start`, in no suspended
service (log entry 5). -/
def State.withFetchWord (s : State) (_nbits w : Nat) : State :=
  { s with
    mem := s.mem.write s.pc.toNat (BitVec.ofNat 16 w)
    run := .running, reason := .none, started := true, pending := none }

end Sys2Proof.Machine
end

