-- ==== Sys2Proof/Machine/Interface.lean ====
section
/-! DEFINITION. The interfaces through which the outside world reaches the machine (70_reset_and_hazards.md R160 to R164;
10_state.md R25). -/

namespace Sys2Proof.Machine

/-- Reset, in any state: the state of R24; the streams belong to the environment and are not touched (R160). -/
def hostReset (s : State) : State :=
  { State.reset with input := s.input, inputClosed := s.inputClosed, output := s.output }

/-- `Load(addr, v)`, between reset and `Start` (R162).  A machine that an earlier load has Aborted stays as it is until reset, its
reason too (10_state.md R19, R20; log entry 15). -/
def hostLoad (cfg : Config) (addr v : Word) (s : State) : Result :=
  if s.started then .refused .loadAfterStart else if s.run = .running then store cfg addr v s else .next s

/-- `Start`, once after reset (R161, R164).  DESIGN CHOICE (log entry 16): on a machine that a load has Aborted it is still
recorded; no step follows. -/
def hostStart (s : State) : Result :=
  if s.started then .refused .alreadyStarted else .next { s with started := true }

/-- A unit as the source delivers it: IN_UNIT_BITS wide (00_scope.md R3, 44_trap.md R122). -/
def unitOf (cfg : Config) (u : Word) : Word := unsignedImm u cfg.inUnitBits

/-- The input source delivers one more unit (R164). -/
def hostDeliver (cfg : Config) (u : Word) (s : State) : Result :=
  if s.inputClosed then .refused .inputClosed else .next { s with input := s.input ++ [unitOf cfg u] }

/-- The input source is closed: no unit follows those delivered (R122, R164). -/
def hostClose (s : State) : State := { s with inputClosed := true }

/-- What the inspection interface returns (R25, R163). -/
structure Snapshot where
  regs : Vector Word 8
  pc : Word
  cc : BitVec 3
  run : RunState
  reason : Reason
  window : List (Option Word)
  deriving DecidableEq, Repr

/-- Inspection with a memory window of `n` words from `addr` (R163); it changes nothing, since it returns no state.  DESIGN CHOICE
(log entry 13): a word of the window at or above MEM_WORDS is answered by `none`, with no abort.  DESIGN CHOICE (log entry
14): a window that runs past 0xFFFF goes on at 0x0000. -/
def inspect (cfg : Config) (addr : Word) (n : Nat) (s : State) : Snapshot where
  regs := s.regs
  pc := s.pc
  cc := s.cc
  run := s.run
  reason := s.reason
  window := (List.range n).map fun k => memRead cfg s.mem (addr + BitVec.ofNat 16 k)

/-- The numeric code of a reason (10_state.md R20, 60_exceptions.md R140). -/
def reasonCode : Reason → Nat
  | .none => 0
  | .haltTrap => 1
  | .unimplementedInstruction _ => 2
  | .unimplementedTrapVector _ => 3
  | .inputExhausted => 4
  | .outOfBoundsMemoryAccess _ => 5

/-- The moves of the environment (the table of R164). -/
inductive HostMove where
  | reset
  | load (addr v : Word)
  | start
  | deliver (u : Word)
  | close
  deriving DecidableEq, Repr

/-- The effect of a move of the environment. -/
def hostMove (m : HostMove) (s : State) : Result :=
  match m with
  | .reset => .next (hostReset s)
  | .load addr v => hostLoad config addr v s
  | .start => hostStart s
  | .deliver u => hostDeliver config u s
  | .close => .next (hostClose s)

end Sys2Proof.Machine
end

