-- ==== Sys2Proof/Safety.lean ====
section
/-! DEFINITION. The vocabulary of the statements: when a machine is ready to fetch, the invariant, frames (what is left
unchanged), and the whole-machine tables of the spec (registers, flags, stores, halts). -/

namespace Sys2Proof.Machine

/-! ### When a step is a whole instruction -/

/-- Running, started, and in no suspended service: the next step fetches (40_execution_cycle.md R71, R79). -/
abbrev State.Ready (s : State) : Prop := s.run = .running ∧ s.started = true ∧ s.pending = none

/-! ### The invariant -/

/-- The reason recorded in a run state (10_state.md R19, R20; 60_exceptions.md R140). -/
def reasonFits (r : RunState) : Reason → Bool
  | .none => r == .running
  | .haltTrap | .unimplementedInstruction _ | .unimplementedTrapVector _ | .inputExhausted => r == .halted
  | .outOfBoundsMemoryAccess _ => r == .aborted

/-- The services a step can be suspended in: the blocking reads (R79) and the two that scan memory
(70_reset_and_hazards.md R168). -/
def blocks : Service → Bool
  | .getc | .inChar | .inu16 | .puts | .putsp => true
  | .out | .halt | .outu16 => false

/-- A suspended step is one of a blocking service of a running machine. -/
def pendingFits (s : State) : Bool :=
  match s.pending with
  | none => true
  | some svc => blocks svc && s.started && s.run == .running

/-- The invariant of every run: memory in canonical form, a reachable flag value (10_state.md R16), never aborted (R19:
"unreachable with the decided value of MEM_WORDS"), the reason that fits the run state (R20), and a suspension only where one
can be. -/
abbrev State.Inv (s : State) : Prop :=
  s.mem.wf ∧ ccLegal s.cc = true ∧ s.run ≠ .aborted ∧ reasonFits s.run s.reason = true ∧ pendingFits s = true

/-- Exactly one of the three flags is set (10_state.md R16). -/
def oneFlag (cc : BitVec 3) : Prop := cc = 0b100 ∨ cc = 0b010 ∨ cc = 0b001

/-- The flag register holds what `SetCC(v)` gives it, in the words of R17. -/
def FlagsFrom (v : Word) (cc : BitVec 3) : Prop :=
  (v.toNat = 0 → cc = 0b010) ∧ (0x8000 ≤ v.toNat → cc = 0b100) ∧ (1 ≤ v.toNat ∧ v.toNat ≤ 0x7FFF → cc = 0b001)

/-! ### Frames -/

/-- Every general register is unchanged. -/
def SameRegs (s t : State) : Prop := ∀ r, t.reg r = s.reg r

/-- Every general register but `d` is unchanged. -/
def SameRegsBut (d : Reg) (s t : State) : Prop := ∀ r, r ≠ d → t.reg r = s.reg r

/-- Every word of memory reads as before. -/
def SameMemory (s t : State) : Prop := ∀ a : Word, t.word a = s.word a

/-- Every word of memory but the one at `ea` reads as before. -/
def SameMemoryBut (ea : Word) (s t : State) : Prop := ∀ a : Word, a ≠ ea → t.word a = s.word a

/-- The run state, the reason, `Start` and the suspension are unchanged. -/
def SameControl (s t : State) : Prop :=
  t.run = s.run ∧ t.reason = s.reason ∧ t.started = s.started ∧ t.pending = s.pending

/-- The input source is unchanged. -/
def SameInput (s t : State) : Prop := t.input = s.input ∧ t.inputClosed = s.inputClosed

/-- Only register `d` and the flags may change. -/
def OnlyRegAndFlags (d : Reg) (s t : State) : Prop :=
  SameRegsBut d s t ∧ t.pc = s.pc ∧ SameMemory s t ∧ SameControl s t ∧ SameInput s t ∧ t.output = s.output

/-- Only the word at `ea` may change. -/
def OnlyWord (ea : Word) (s t : State) : Prop :=
  SameRegs s t ∧ t.pc = s.pc ∧ t.cc = s.cc ∧ SameMemoryBut ea s t ∧ SameControl s t ∧ SameInput s t ∧
    t.output = s.output

/-- Only the program counter may change. -/
def OnlyPc (s t : State) : Prop :=
  SameRegs s t ∧ t.cc = s.cc ∧ SameMemory s t ∧ SameControl s t ∧ SameInput s t ∧ t.output = s.output

/-- Only the program counter and register 7 may change. -/
def OnlyPcAndLink (s t : State) : Prop :=
  SameRegsBut 7 s t ∧ t.cc = s.cc ∧ SameMemory s t ∧ SameControl s t ∧ SameInput s t ∧ t.output = s.output

/-- Only the output sink may change. -/
def OnlyOutput (s t : State) : Prop :=
  SameRegs s t ∧ t.pc = s.pc ∧ t.cc = s.cc ∧ SameMemory s t ∧ SameControl s t ∧ SameInput s t

/-- Only register 0, the units still to be read and the output sink may change. -/
def OnlyReg0AndStreams (s t : State) : Prop :=
  SameRegsBut 0 s t ∧ t.pc = s.pc ∧ t.cc = s.cc ∧ SameMemory s t ∧ SameControl s t ∧ t.inputClosed = s.inputClosed

/-- The machine has halted with a reason and nothing else has changed (60_exceptions.md R141, R149). -/
def HaltedWith (e : Reason) (s t : State) : Prop :=
  t.run = .halted ∧ t.reason = e ∧ SameRegs s t ∧ t.pc = s.pc ∧ t.cc = s.cc ∧ SameMemory s t ∧
    t.started = s.started ∧ t.pending = s.pending ∧ SameInput s t ∧ t.output = s.output

/-- The machine has aborted on an access at `addr` (60_exceptions.md R145); nothing is said of its other state. -/
def AbortedAt (addr : Word) (t : State) : Prop := t.run = .aborted ∧ t.reason = .outOfBoundsMemoryAccess addr

/-! ### Whole-machine tables -/

/-- The state transformer on the next state of an outcome. -/
def onNext (f : State → State) : Result → Result
  | .next t => .next (f t)
  | .fault r => .fault r
  | .refused r => .refused r

/-- The registers a service reads and writes (the TRAP rows of 10_state.md R12). -/
def serviceReads : Service → List Reg
  | .out | .puts | .putsp | .outu16 => [0]
  | .getc | .inChar | .inu16 | .halt => []
def serviceWrites : Service → List Reg
  | .getc | .inChar | .inu16 => [0]
  | .out | .puts | .putsp | .outu16 | .halt => []

/-- The column "reads" of the table of 10_state.md R12. -/
def regsRead : Instr → List Reg
  | .br _ _ | .ld _ _ | .ldi _ _ | .lea _ _ | .jsr _ | .rti | .res => []
  | .addReg _ a b | .andReg _ a b => [a, b]
  | .addImm _ a _ | .andImm _ a _ | .not _ a => [a]
  | .ldr _ b _ => [b]
  | .st d _ | .sti d _ => [d]
  | .str d b _ => [d, b]
  | .jmp b | .jsrr b => [b]
  | .trap v => match serviceOf config v with | some svc => serviceReads svc | none => []
  | .trapGetc => serviceReads .getc
  | .trapOut => serviceReads .out
  | .trapPuts => serviceReads .puts
  | .trapIn => serviceReads .inChar
  | .trapPutsp => serviceReads .putsp
  | .trapHalt => serviceReads .halt
  | .trapInu16 => serviceReads .inu16
  | .trapOutu16 => serviceReads .outu16

/-- The column "writes" of the table of 10_state.md R12. -/
def regsWritten : Instr → List Reg
  | .addReg d _ _ | .andReg d _ _ | .addImm d _ _ | .andImm d _ _ | .not d _ => [d]
  | .ld d _ | .ldi d _ | .lea d _ | .ldr d _ _ => [d]
  | .jsr _ | .jsrr _ => [7]
  | .br _ _ | .st _ _ | .sti _ _ | .str _ _ _ | .jmp _ | .rti | .res => []
  | .trap v => match serviceOf config v with | some svc => serviceWrites svc | none => []
  | .trapGetc => serviceWrites .getc
  | .trapOut => serviceWrites .out
  | .trapPuts => serviceWrites .puts
  | .trapIn => serviceWrites .inChar
  | .trapPutsp => serviceWrites .putsp
  | .trapHalt => serviceWrites .halt
  | .trapInu16 => serviceWrites .inu16
  | .trapOutu16 => serviceWrites .outu16

/-- The destination of the seven instructions that call `SetCC` (10_state.md R18). -/
def flagDest : Instr → Option Reg
  | .addReg d _ _ | .andReg d _ _ | .addImm d _ _ | .andImm d _ _ | .not d _ => some d
  | .ld d _ | .ldi d _ | .lea d _ | .ldr d _ _ => some d
  | .br _ _ | .st _ _ | .sti _ _ | .str _ _ _ | .jmp _ | .jsr _ | .jsrr _ | .rti | .res => none
  | .trap _ | .trapGetc | .trapOut | .trapPuts | .trapIn | .trapPutsp | .trapHalt | .trapInu16 | .trapOutu16 => none

/-- The instruction is a BR. -/
def isBr : Instr → Bool
  | .br _ _ => true
  | .addReg _ _ _ | .addImm _ _ _ | .andReg _ _ _ | .andImm _ _ _ | .not _ _ => false
  | .ld _ _ | .ldi _ _ | .ldr _ _ _ | .lea _ _ => false
  | .st _ _ | .sti _ _ | .str _ _ _ => false
  | .jmp _ | .jsr _ | .jsrr _ => false
  | .rti | .res => false
  | .trap _ | .trapGetc | .trapOut | .trapPuts | .trapIn | .trapPutsp | .trapHalt | .trapInu16 | .trapOutu16 => false

/-- The instructions that write `pc` in their handler (10_state.md R14), BR only when it is taken (43_control.md R111). -/
def writesPc (s : State) : Instr → Bool
  | .br cond _ => s.cc &&& cond != 0
  | .jmp _ | .jsr _ | .jsrr _ => true
  | .addReg _ _ _ | .addImm _ _ _ | .andReg _ _ _ | .andImm _ _ _ | .not _ _ => false
  | .ld _ _ | .ldi _ _ | .ldr _ _ _ | .lea _ _ => false
  | .st _ _ | .sti _ _ | .str _ _ _ => false
  | .rti | .res => false
  | .trap _ | .trapGetc | .trapOut | .trapPuts | .trapIn | .trapPutsp | .trapHalt | .trapInu16 | .trapOutu16 => false

/-- The word a store writes, computed as the meaning computes it (42_data_movement.md R100 to R102), with the register
whose value goes there; `none` for a form that stores nothing. -/
def storeTarget (s : State) : Instr → Option (Word × Reg)
  | .st sr offset => some (pcRelative s offset, sr)
  | .sti sr offset => some (s.word (pcRelative s offset), sr)
  | .str sr base offset => some (basePlus s base offset, sr)
  | .br _ _ => none
  | .addReg _ _ _ | .addImm _ _ _ | .andReg _ _ _ | .andImm _ _ _ | .not _ _ => none
  | .ld _ _ | .ldi _ _ | .ldr _ _ _ | .lea _ _ => none
  | .jmp _ | .jsr _ | .jsrr _ => none
  | .rti | .res => none
  | .trap _ | .trapGetc | .trapOut | .trapPuts | .trapIn | .trapPutsp | .trapHalt | .trapInu16 | .trapOutu16 => none

/-- The handlers that request Halted (40_execution_cycle.md R75). -/
def requestsHalt (s : State) : Instr → Bool
  | .rti | .res | .trap _ | .trapHalt => true
  | .trapGetc | .trapIn | .trapInu16 => s.input.isEmpty && s.inputClosed
  | .trapOut | .trapPuts | .trapPutsp | .trapOutu16 | .br _ _ => false
  | .addReg _ _ _ | .addImm _ _ _ | .andReg _ _ _ | .andImm _ _ _ | .not _ _ => false
  | .ld _ _ | .ldi _ _ | .ldr _ _ _ | .lea _ _ => false
  | .st _ _ | .sti _ _ | .str _ _ _ => false
  | .jmp _ | .jsr _ | .jsrr _ => false

/-- The instruction of a service's row of spec/opcode_table.json (44_trap.md R121). -/
def serviceInstr : Service → Instr
  | .getc => .trapGetc
  | .out => .trapOut
  | .puts => .trapPuts
  | .inChar => .trapIn
  | .putsp => .trapPutsp
  | .halt => .trapHalt
  | .inu16 => .trapInu16
  | .outu16 => .trapOutu16

/-- The three instructions that consume input (44_trap.md R125, R128, R131), with their services. -/
def inputService : Instr → Option Service
  | .trapGetc => some .getc
  | .trapIn => some .inChar
  | .trapInu16 => some .inu16
  | .trap _ | .trapOut | .trapPuts | .trapPutsp | .trapHalt | .trapOutu16 | .br _ _ => none
  | .addReg _ _ _ | .addImm _ _ _ | .andReg _ _ _ | .andImm _ _ _ | .not _ _ => none
  | .ld _ _ | .ldi _ _ | .ldr _ _ _ | .lea _ _ => none
  | .st _ _ | .sti _ _ | .str _ _ _ => none
  | .jmp _ | .jsr _ | .jsrr _ => none
  | .rti | .res => none

/-! ### String services -/

/-- The characters a string service writes for one non-zero word, in the words of 44_trap.md R127 (bits 7 to 0) and R129 (bits
7 to 0, then bits 15 to 8 unless they are zero); the other services write no string. -/
def wordCharacters (svc : Service) (w : Word) : List OutEvent :=
  match svc with
  | .puts => [.char (w.extractLsb' 0 8)]
  | .putsp => .char (w.extractLsb' 0 8) :: if w.toNat < 256 then [] else [.char (w.extractLsb' 8 8)]
  | .getc | .out | .inChar | .halt | .inu16 | .outu16 => []

/-- The service has written the characters of all 65536 words from `x[0]`, in order, is still inside itself, and has changed
nothing else (70_reset_and_hazards.md R168; `pending` and the lap are the model's form, log entry 7). -/
def WritesLap (svc : Service) (s t : State) : Prop :=
  t.output = s.output ++ (List.range 65536).flatMap (fun j =>
    wordCharacters svc (s.word (s.reg 0 + BitVec.ofNat 16 j))) ∧
    t.pending = some svc ∧ t.run = s.run ∧ t.reason = s.reason ∧ t.started = s.started ∧
    SameRegs s t ∧ t.pc = s.pc ∧ t.cc = s.cc ∧ SameMemory s t ∧ SameInput s t

/-! ### Runs that leave a word alone -/

/-- The next step is a store to `ea`. -/
def storesNext (ea : Word) (s : State) : Prop :=
  s.Ready ∧ ∃ r, storeTarget { s with pc := s.pc + 1 } (decode (s.word s.pc)) = some (ea, r)

/-- `u` is reached from `t` by steps none of which stores to `ea`. -/
inductive ReachesWithoutStore (ea : Word) (t : State) : State → Prop where
  | here : ReachesWithoutStore ea t t
  | step (u v : State) : ReachesWithoutStore ea t u → ¬ storesNext ea u → Machine.step u = .next v →
      ReachesWithoutStore ea t v

end Sys2Proof.Machine
end

