-- ==== Sys2Proof/Certificates/Slice0/Obligations.lean ====
section
/-! DEFINITION. The statements for the provers.  In a statement about an instruction the state `s` is the one after the
fetch, so `s.pc` is the incremented program counter (40_execution_cycle.md R72).  Match and mask values are those of the
default OPMAP and TRAPVEC, decisions D1 and D2 of the spec (log entry 1). -/

open Sys2Proof Sys2Proof.Machine

/-! ### Decoding and encoding -/

/-- The words written out bit by bit in 95_test_vectors.md, "Encodings used in the examples of the other files"
(default OPMAP and TRAPVEC: log entry 1). -/
def Obligations.WordsOfTheSpecDecode : Prop :=
  decode 0b0001001010000011 = .addReg 1 2 3 ∧ decode 0b0001001000100101 = .addImm 1 0 5 ∧
  decode 0b0101010000000001 = .andReg 2 0 1 ∧ decode 0b0101011011101111 = .andImm 3 3 15 ∧
  decode 0b1001001001000000 = .not 1 1 ∧ decode 0b0010001000000010 = .ld 1 2 ∧
  decode 0b1010010000000001 = .ldi 2 1 ∧ decode 0b0110010001000000 = .ldr 2 1 0 ∧
  decode 0b1110001000000011 = .lea 1 3 ∧ decode 0b0011011000000101 = .st 3 5 ∧
  decode 0b1011000000000001 = .sti 0 1 ∧ decode 0b0111000001000000 = .str 0 1 0 ∧
  decode 0b0000010000000011 = .br 0b010 3 ∧ decode 0b1100000010000000 = .jmp 2 ∧
  decode 0b0100100000000010 = .jsr 2 ∧ decode 0b0100000010000000 = .jsrr 2 ∧
  decode 0b1111000000100101 = .trapHalt

/-- Decoding an encoded well-formed instruction gives it back, for every instruction and every operand value. -/
def Obligations.DecodeOfEncode : Prop :=
  ∀ i : Instr, i.wellFormed = true → decode (encode i) = i

/-- Every word decodes to a well-formed instruction, and the word is that instruction's canonical word in every bit the
instruction's form reads, the unread bits being the ones cleared. -/
def Obligations.EncodeOfDecode : Prop :=
  ∀ w : Word, (decode w).wellFormed = true ∧ encode (decode w) = w &&& readBits (decode w)

/-- 30_encoding.md R59 (decision D17, log entry 2): a word that differs only in unread bits decodes to the same instruction,
so that it does the same in every state, and every word has a behaviour. -/
def Obligations.UnreadBitsAreIgnored : Prop :=
  (∀ w w' : Word, w' &&& readBits (decode w) = w &&& readBits (decode w) → decode w' = decode w) ∧
  ∀ (w : Word) (s : State), ∃ t, exec (decode w) s = .next t

/-- 30_encoding.md R52, the default OPMAP (decision D1, from general knowledge: log entry 1): a bijection, with these
numbers. -/
def Obligations.OpcodeMapIsTheTable : Prop :=
  (∀ b, config.opcodeOf (config.opmap b) = b) ∧ (∀ c, config.opmap (config.opcodeOf c) = c) ∧
  config.opmap 0b0000 = .br ∧ config.opmap 0b0001 = .add ∧ config.opmap 0b0010 = .ld ∧ config.opmap 0b0011 = .st ∧
  config.opmap 0b0100 = .jsr ∧ config.opmap 0b0101 = .and ∧ config.opmap 0b0110 = .ldr ∧ config.opmap 0b0111 = .str ∧
  config.opmap 0b1000 = .rti ∧ config.opmap 0b1001 = .not ∧ config.opmap 0b1010 = .ldi ∧ config.opmap 0b1011 = .sti ∧
  config.opmap 0b1100 = .jmp ∧ config.opmap 0b1101 = .res ∧ config.opmap 0b1110 = .lea ∧ config.opmap 0b1111 = .trap

/-- 30_encoding.md R49 and R50: `unsignedImm` is the low bits of the word, as a mask and as a zero extension; `signExtend`
copies them, copies the top one upward, has the signed value the rule gives, and depends on nothing above. -/
def Obligations.ImmediateExtension : Prop :=
  (∀ (op : Word) (width : Nat), width ≤ 16 → unsignedImm op width = op &&& BitVec.ofNat 16 (2 ^ width - 1)) ∧
  ∀ (op : Word) (width : Nat), 1 ≤ width → width ≤ 15 →
    (∀ i, i < width → (signExtend op width).getLsbD i = op.getLsbD i) ∧
    (∀ i, width ≤ i → i < 16 → (signExtend op width).getLsbD i = op.getLsbD (width - 1)) ∧
    unsignedImm (signExtend op width) width = unsignedImm op width ∧
    (op.getLsbD (width - 1) = false → signExtend op width = unsignedImm op width) ∧
    (op.getLsbD (width - 1) = true →
      signExtend op width = unsignedImm op width ||| (0xFFFF#16 <<< width) ∧
      (signExtend op width).toInt = (unsignedImm op width).toNat - 2 ^ width) ∧
    ∀ op' : Word, unsignedImm op' width = unsignedImm op width → signExtend op' width = signExtend op width

/-- 30_encoding.md R46 to R48, R51, R53 to R55: where each decoder output lies, as arithmetic on the word's number. -/
def Obligations.DecoderFieldPositions : Prop :=
  ∀ op : Word,
    (destReg op).val = op.toNat / 512 % 8 ∧ (srcReg1 op).val = op.toNat / 64 % 8 ∧ (srcReg2 op).val = op.toNat % 8 ∧
    (opcode op).toNat = op.toNat / 4096 ∧ (condField op).toNat = op.toNat / 512 % 8 ∧
    (immModeFlag op = true ↔ op.toNat / 32 % 2 = 1) ∧ (longImmFlag op = true ↔ op.toNat / 2048 % 2 = 1)

/-- 44_trap.md R120 (decision D3, log entry 2): the vector is the sign extension of bits 6 to 0; bits 11 to 7 have no
effect; bit 6 clear gives 0x0000 to 0x003F, bit 6 set gives 0xFFC0 to 0xFFFF and selects no service. -/
def Obligations.TrapVectorExtraction : Prop :=
  ∀ w : Word, trapVector w = signExtend w 7 ∧ trapVector (w &&& 0xF07F) = trapVector w ∧
    (w.getLsbD 6 = false → (trapVector w).toNat = w.toNat % 64) ∧
    (w.getLsbD 6 = true → 0xFFC0 ≤ (trapVector w).toNat ∧ serviceOf config (trapVector w) = none)

/-- 30_encoding.md R60 (default OPMAP and TRAPVEC, log entry 1): the words that report `UnimplementedInstruction` are exactly
0x8000 to 0x8FFF and 0xD000 to 0xDFFF, and those that report `UnimplementedTrapVector` are exactly the words of the TRAP class
whose vector selects no service.  Of the third error, `InputExhausted`, it says nothing: that is `HaltRequests`. -/
def Obligations.IllegalWordsHalt : Prop :=
  ∀ (w : Word) (s : State), s.run = .running → s.reason = .none → ∃ t, exec (decode w) s = .next t ∧
    ((0x8000 ≤ w.toNat ∧ w.toNat ≤ 0x8FFF) ∨ (0xD000 ≤ w.toNat ∧ w.toNat ≤ 0xDFFF) →
      t.run = .halted ∧ t.reason = .unimplementedInstruction (opcode w)) ∧
    (0xF000 ≤ w.toNat ∧ serviceOf config (trapVector w) = none →
      t.run = .halted ∧ t.reason = .unimplementedTrapVector (trapVector w)) ∧
    ((∃ op, t.reason = .unimplementedInstruction op) →
      (0x8000 ≤ w.toNat ∧ w.toNat ≤ 0x8FFF) ∨ (0xD000 ≤ w.toNat ∧ w.toNat ≤ 0xDFFF)) ∧
    ((∃ v, t.reason = .unimplementedTrapVector v) → 0xF000 ≤ w.toNat ∧ serviceOf config (trapVector w) = none)

/-! ### The step and the run state -/

/-- 40_execution_cycle.md R72 to R74: a step of a ready machine is `exec` of the instruction decoded from the word at `pc`, on
the state with `pc` advanced; and a word placed by `withFetchWord` is the one that runs. -/
def Obligations.StepRunsTheDecodedInstruction : Prop :=
  (∀ s : State, s.Ready → step s = exec (decode (s.word s.pc)) { s with pc := s.pc + 1 }) ∧
  ∀ (s : State) (w : Word), (s.withFetchWord 16 w.toNat).Ready ∧
    step (s.withFetchWord 16 w.toNat) =
      exec (decode w) { s.withFetchWord 16 w.toNat with pc := s.pc + 1 }

/-- Every step of a machine that meets the invariant (canonical memory, a reachable flag value, a fitting reason, never
aborted, a suspension only where one can be) answers a next state, which meets it again. -/
def Obligations.StepKeepsInvariant : Prop :=
  ∀ s : State, s.Inv → ∃ t, step s = .next t ∧ t.Inv

/-- The state after reset meets the invariant. -/
def Obligations.ResetMeetsInvariant : Prop := State.reset.Inv

/-- Every move of the environment keeps the invariant (70_reset_and_hazards.md R160 to R164). -/
def Obligations.HostMovesKeepInvariant : Prop :=
  ∀ (m : HostMove) (s t : State), s.Inv → hostMove m s = .next t → t.Inv

/-- 40_execution_cycle.md R71, 70_reset_and_hazards.md R161: before `Start` and once Halted nothing changes; an Aborted
machine faults.  That a machine which takes no step answers itself is the model's form
(DESIGN CHOICE, log entry 5). -/
def Obligations.StoppedMachineIsFrozen : Prop :=
  (∀ s : State, s.run = .halted ∨ (s.run = .running ∧ s.started = false) → step s = .next s) ∧
  ∀ s : State, s.run = .aborted → step s = .fault .aborted

/-- 40_execution_cycle.md R75: exactly these handlers request Halted: RTI, RES, an unknown vector, HALT, and an
input-consuming service on an exhausted source; every other leaves `run` Running. -/
def Obligations.HaltRequests : Prop :=
  ∀ (i : Instr) (s : State), i.wellFormed = true → s.run = .running → ∃ t, exec i s = .next t ∧
    (requestsHalt s i = true → t.run = .halted) ∧ (requestsHalt s i = false → t.run = .running)

/-- 60_exceptions.md R141: an instruction that halts the machine sets `run` and `reason` and changes nothing else, whatever the
condition. -/
def Obligations.HaltChangesNothingElse : Prop :=
  ∀ (i : Instr) (s t : State), s.run = .running → exec i s = .next t → t.run = .halted →
    t = { s with run := .halted, reason := t.reason } ∧
      (t.reason = .haltTrap ∨ (∃ op, t.reason = .unimplementedInstruction op) ∨
        (∃ v, t.reason = .unimplementedTrapVector v) ∨ t.reason = .inputExhausted)

/-- 10_state.md R14 (the wrap: decision D6, log entry 2): the step of every instruction answers with `pc` advanced by 1 modulo 2^16, but for a taken BR, JMP and
JSR; a halting instruction leaves `pc` at the incremented value. -/
def Obligations.PcAdvance : Prop :=
  ∀ s : State, s.Ready → ∃ t, step s = .next t ∧
    (writesPc s (decode (s.word s.pc)) = false → t.pc.toNat = (s.pc.toNat + 1) % 65536) ∧
    (t.run = .halted → t.pc.toNat = (s.pc.toNat + 1) % 65536)

/-! ### Registers, flags and memory, over all instructions -/

/-- 10_state.md R12: an instruction writes no register but those its row lists, and what it does depends on no register but
those its row lists as read: changing another register `r` changes nothing in the outcome but `r` itself. -/
def Obligations.RegisterTable : Prop :=
  (∀ (i : Instr) (s t : State) (r : Reg), exec i s = .next t → r ∉ regsWritten i → t.reg r = s.reg r) ∧
  ∀ (i : Instr) (s : State) (r : Reg) (v : Word), r ∉ regsRead i →
    onNext (fun t => t.setReg r 0) (exec i (s.setReg r v)) = onNext (fun t => t.setReg r 0) (exec i s)

/-- 10_state.md R16: the flags are clear at reset; a register that holds 000 or exactly one flag keeps doing so, and once
exactly one flag is set exactly one is set after every step; a flag-updating instruction sets exactly one whatever the
flags were. -/
def Obligations.FlagsOnceSetStaySet : Prop :=
  State.reset.cc = 0b000 ∧
  (∀ s t : State, step s = .next t → s.run ≠ .aborted → oneFlag s.cc → oneFlag t.cc) ∧
  (∀ s t : State, step s = .next t → s.run ≠ .aborted → s.cc = 0b000 → t.cc = 0b000 ∨ oneFlag t.cc) ∧
  ∀ (i : Instr) (s t : State), (flagDest i).isSome = true → exec i s = .next t → oneFlag t.cc

/-- 10_state.md R17: `SetCC(v)` sets exactly the flag of `v`'s sign and replaces all three bits. -/
def Obligations.SetCCSetsTheSignFlag : Prop :=
  ∀ (v : Word) (s : State), FlagsFrom v (setCC v s).cc ∧ oneFlag (setCC v s).cc ∧
    ∀ c : BitVec 3, setCC v { s with cc := c } = setCC v s

/-- 10_state.md R18: the seven flag-updating instructions set the flags from the value they have just written to their
destination, no other instruction writes them, and only BR reads them. -/
def Obligations.FlagWritersAndReader : Prop :=
  (∀ (i : Instr) (s t : State) (d : Reg), flagDest i = some d → exec i s = .next t → FlagsFrom (t.reg d) t.cc) ∧
  (∀ (i : Instr) (s t : State), flagDest i = none → exec i s = .next t → t.cc = s.cc) ∧
  ∀ (i : Instr) (s : State) (c : BitVec 3), isBr i = false →
    onNext (fun t => { t with cc := 0 }) (exec i { s with cc := c }) =
      onNext (fun t => { t with cc := 0 }) (exec i s)

/-- 20_memory.md R36, the column of writes: ST, STI and STR write one word, at the address their meaning computes, and no other
instruction writes memory. -/
def Obligations.OnlyStoresWriteMemory : Prop :=
  ∀ (i : Instr) (s t : State), exec i s = .next t →
    (∀ (ea : Word) (r : Reg), storeTarget s i = some (ea, r) → t.word ea = s.reg r ∧ SameMemoryBut ea s t) ∧
    (storeTarget s i = none → SameMemory s t)

/-- 20_memory.md R42 (which the spec marks as derived from R31, R32 and R40): the word a ST, STI or STR wrote is the
instruction executed when `pc` next reaches its address, at once or after any steps that do not store to it again. -/
def Obligations.StoreIsSeenByTheFetch : Prop :=
  ∀ (i : Instr) (s t u : State) (ea : Word) (r : Reg), exec i s = .next t → storeTarget s i = some (ea, r) →
    ReachesWithoutStore ea t u → u.Ready → u.pc = ea →
    step u = exec (decode (s.reg r)) { u with pc := ea + 1 }

/-- 20_memory.md R38 (decision D6, log entry 2): every effective address is the sum modulo 2^16, whatever the sign of the
offset. -/
def Obligations.EffectiveAddressesWrap : Prop :=
  (∀ (s : State) (o : BitVec 9), ((pcRelative s o).toNat : Int) = (s.pc.toNat + o.toInt) % 65536) ∧
  (∀ (s : State) (o : BitVec 11), ((pcRelativeLong s o).toNat : Int) = (s.pc.toNat + o.toInt) % 65536) ∧
  ∀ (s : State) (b : Reg) (o : BitVec 6), ((basePlus s b o).toNat : Int) = ((s.reg b).toNat + o.toInt) % 65536

/-- 20_memory.md R33 (decision D4, log entry 2), under every configuration: an access at or above MEM_WORDS reads nothing,
writes nothing and aborts with its address; with MEM_WORDS = 65536 every access is defined. -/
def Obligations.OutOfBoundsAborts : Prop :=
  (∀ (cfg : Config) (addr v : Word) (s : State) (k : Word → Result), cfg.memWords ≤ addr.toNat →
    memRead cfg s.mem addr = none ∧ memWrite cfg s.mem addr v = none ∧
    (∃ t, readThen cfg addr s k = .next t ∧ AbortedAt addr t) ∧
    (∃ t, store cfg addr v s = .next t ∧ AbortedAt addr t) ∧
    (s.pc = addr → ∀ f, ∃ t, fetchThen cfg s f = .next t ∧ AbortedAt addr t)) ∧
  ∀ (m : Memory) (addr v : Word), memRead config m addr = some (m.read addr.toNat) ∧
    ∃ m', memWrite config m addr v = some m' ∧ m'.read addr.toNat = v ∧ ∀ a, a ≠ addr.toNat → m'.read a = m.read a

/-- Two memories in canonical form that read alike at every address are the same data (the model's form, log entry 3). -/
def Obligations.CanonicalMemoriesAreEqual : Prop :=
  ∀ m m' : Memory, m.wf → m'.wf → (∀ a : Word, m.read a.toNat = m'.read a.toNat) → m = m'

/-! ### Reset and the environment -/

/-- 10_state.md R24 and 70_reset_and_hazards.md R160, R161 (PC_RESET by decision D5 and reset from any state by decision D18,
log entry 2; that it is not started and in no suspended service are fields of the model, log entries 5 and 6): the state after
reset; reset in any state gives it and leaves the streams
as they are. -/
def Obligations.ResetState : Prop :=
  ((∀ r, State.reset.reg r = 0x0000) ∧ State.reset.pc = 0x3000 ∧ State.reset.cc = 0b000 ∧
    (∀ a, State.reset.word a = 0x0000) ∧ State.reset.run = .running ∧ State.reset.reason = .none) ∧
  ∀ s : State, (∀ r, (hostReset s).reg r = 0x0000) ∧ (hostReset s).pc = 0x3000 ∧ (hostReset s).cc = 0b000 ∧
    (∀ a, (hostReset s).word a = 0x0000) ∧ (hostReset s).run = .running ∧ (hostReset s).reason = .none ∧
    (hostReset s).started = false ∧ (hostReset s).pending = none ∧
    SameInput s (hostReset s) ∧ (hostReset s).output = s.output

/-- 70_reset_and_hazards.md R162: before `Start` a load into a running machine writes its word and nothing else, or, out of bounds
of a smaller store, aborts; a machine that a load has Aborted changes no more (10_state.md R19, R20; log entry 15); after
`Start` the model refuses a load (the spec gives it no meaning; log entry 9). -/
def Obligations.LoadWritesOneWordBeforeStart : Prop :=
  (∀ (addr v : Word) (s : State), s.started = false → s.run = .running →
    ∃ t, hostLoad config addr v s = .next t ∧ t.word addr = v ∧ OnlyWord addr s t) ∧
  (∀ (cfg : Config) (addr v : Word) (s : State), s.started = false → s.run = .running → cfg.memWords ≤ addr.toNat →
    ∃ t, hostLoad cfg addr v s = .next t ∧ AbortedAt addr t) ∧
  (∀ (cfg : Config) (addr v : Word) (s : State), s.started = false → s.run ≠ .running →
    hostLoad cfg addr v s = .next s) ∧
  ∀ (cfg : Config) (addr v : Word) (s : State), s.started = true → hostLoad cfg addr v s = .refused .loadAfterStart

/-! ### Operate instructions -/

/-- 41_operate.md R86, R87: ADD in both forms. -/
def Obligations.AddGivesTheSum : Prop :=
  (∀ w : Word, w &&& 0xF020 = 0x1000 → decode w = .addReg (destReg w) (srcReg1 w) (srcReg2 w)) ∧
  (∀ (d a b : Reg) (s : State), ∃ t, exec (.addReg d a b) s = .next t ∧
    (t.reg d).toNat = ((s.reg a).toNat + (s.reg b).toNat) % 65536 ∧ FlagsFrom (t.reg d) t.cc ∧ OnlyRegAndFlags d s t) ∧
  (∀ w : Word, w &&& 0xF020 = 0x1020 → decode w = .addImm (destReg w) (srcReg1 w) (w.extractLsb' 0 5)) ∧
  ∀ (d a : Reg) (imm : BitVec 5) (s : State), ∃ t, exec (.addImm d a imm) s = .next t ∧
    ((t.reg d).toNat : Int) = ((s.reg a).toNat + imm.toInt) % 65536 ∧ FlagsFrom (t.reg d) t.cc ∧ OnlyRegAndFlags d s t

/-- 41_operate.md R88, R89: AND in both forms. -/
def Obligations.AndGivesTheConjunction : Prop :=
  (∀ w : Word, w &&& 0xF020 = 0x5000 → decode w = .andReg (destReg w) (srcReg1 w) (srcReg2 w)) ∧
  (∀ (d a b : Reg) (s : State), ∃ t, exec (.andReg d a b) s = .next t ∧
    (∀ k, (t.reg d).getLsbD k = ((s.reg a).getLsbD k && (s.reg b).getLsbD k)) ∧
    FlagsFrom (t.reg d) t.cc ∧ OnlyRegAndFlags d s t) ∧
  (∀ w : Word, w &&& 0xF020 = 0x5020 → decode w = .andImm (destReg w) (srcReg1 w) (w.extractLsb' 0 5)) ∧
  ∀ (d a : Reg) (imm : BitVec 5) (s : State), ∃ t, exec (.andImm d a imm) s = .next t ∧
    (∀ k, k < 16 → (t.reg d).getLsbD k = ((s.reg a).getLsbD k && imm.getLsbD (min k 4))) ∧
    FlagsFrom (t.reg d) t.cc ∧ OnlyRegAndFlags d s t

/-- 41_operate.md R90: NOT. -/
def Obligations.NotGivesTheComplement : Prop :=
  (∀ w : Word, w &&& 0xF000 = 0x9000 → decode w = .not (destReg w) (srcReg1 w)) ∧
  ∀ (d a : Reg) (s : State), ∃ t, exec (.not d a) s = .next t ∧
    (t.reg d).toNat = 0xFFFF - (s.reg a).toNat ∧ (∀ k, k < 16 → (t.reg d).getLsbD k = !(s.reg a).getLsbD k) ∧
    FlagsFrom (t.reg d) t.cc ∧ OnlyRegAndFlags d s t

/-! ### Data movement -/

/-- 42_data_movement.md R96: LD; with a smaller store, the abort at the effective address. -/
def Obligations.LdLoadsPcRelative : Prop :=
  (∀ w : Word, w &&& 0xF000 = 0x2000 → decode w = .ld (destReg w) (w.extractLsb' 0 9)) ∧
  (∀ (d : Reg) (o : BitVec 9) (s : State), ∃ t, exec (.ld d o) s = .next t ∧
    t.reg d = s.word (s.pc + o.signExtend 16) ∧ FlagsFrom (t.reg d) t.cc ∧ OnlyRegAndFlags d s t) ∧
  ∀ (cfg : Config) (d : Reg) (o : BitVec 9) (s : State), cfg.memWords ≤ (s.pc + o.signExtend 16).toNat →
    ∃ t, ldWith cfg d o s = .next t ∧ AbortedAt (s.pc + o.signExtend 16) t

/-- 42_data_movement.md R97: LDI; with a smaller store, the abort at the pointer first, else at the address it holds. -/
def Obligations.LdiLoadsIndirect : Prop :=
  (∀ w : Word, w &&& 0xF000 = 0xA000 → decode w = .ldi (destReg w) (w.extractLsb' 0 9)) ∧
  (∀ (d : Reg) (o : BitVec 9) (s : State), ∃ t, exec (.ldi d o) s = .next t ∧
    t.reg d = s.word (s.word (s.pc + o.signExtend 16)) ∧ FlagsFrom (t.reg d) t.cc ∧ OnlyRegAndFlags d s t) ∧
  ∀ (cfg : Config) (d : Reg) (o : BitVec 9) (s : State),
    (cfg.memWords ≤ (s.pc + o.signExtend 16).toNat →
      ∃ t, ldiWith cfg d o s = .next t ∧ AbortedAt (s.pc + o.signExtend 16) t) ∧
    ((s.pc + o.signExtend 16).toNat < cfg.memWords → cfg.memWords ≤ (s.word (s.pc + o.signExtend 16)).toNat →
      ∃ t, ldiWith cfg d o s = .next t ∧ AbortedAt (s.word (s.pc + o.signExtend 16)) t)

/-- 42_data_movement.md R98: LDR; with a smaller store, the abort at the effective address. -/
def Obligations.LdrLoadsBasePlusOffset : Prop :=
  (∀ w : Word, w &&& 0xF000 = 0x6000 → decode w = .ldr (destReg w) (srcReg1 w) (w.extractLsb' 0 6)) ∧
  (∀ (d b : Reg) (o : BitVec 6) (s : State), ∃ t, exec (.ldr d b o) s = .next t ∧
    t.reg d = s.word (s.reg b + o.signExtend 16) ∧ FlagsFrom (t.reg d) t.cc ∧ OnlyRegAndFlags d s t) ∧
  ∀ (cfg : Config) (d b : Reg) (o : BitVec 6) (s : State), cfg.memWords ≤ (s.reg b + o.signExtend 16).toNat →
    ∃ t, ldrWith cfg d b o s = .next t ∧ AbortedAt (s.reg b + o.signExtend 16) t

/-- 42_data_movement.md R99: LEA, which accesses no memory: the outcome is the same whatever memory holds. -/
def Obligations.LeaGivesTheAddress : Prop :=
  (∀ w : Word, w &&& 0xF000 = 0xE000 → decode w = .lea (destReg w) (w.extractLsb' 0 9)) ∧
  (∀ (d : Reg) (o : BitVec 9) (s : State), ∃ t, exec (.lea d o) s = .next t ∧
    t.reg d = s.pc + o.signExtend 16 ∧ FlagsFrom (t.reg d) t.cc ∧ OnlyRegAndFlags d s t) ∧
  ∀ (d : Reg) (o : BitVec 9) (s : State) (m : Memory),
    exec (.lea d o) { s with mem := m } = onNext (fun t => { t with mem := m }) (exec (.lea d o) s)

/-- 42_data_movement.md R100: ST; with a smaller store, the abort at the effective address. -/
def Obligations.StStoresPcRelative : Prop :=
  (∀ w : Word, w &&& 0xF000 = 0x3000 → decode w = .st (destReg w) (w.extractLsb' 0 9)) ∧
  (∀ (r : Reg) (o : BitVec 9) (s : State), ∃ t, exec (.st r o) s = .next t ∧
    t.word (s.pc + o.signExtend 16) = s.reg r ∧ OnlyWord (s.pc + o.signExtend 16) s t) ∧
  ∀ (cfg : Config) (r : Reg) (o : BitVec 9) (s : State), cfg.memWords ≤ (s.pc + o.signExtend 16).toNat →
    ∃ t, stWith cfg r o s = .next t ∧ AbortedAt (s.pc + o.signExtend 16) t

/-- 42_data_movement.md R101: STI; with a smaller store, the abort at the pointer first, else at the address it holds. -/
def Obligations.StiStoresIndirect : Prop :=
  (∀ w : Word, w &&& 0xF000 = 0xB000 → decode w = .sti (destReg w) (w.extractLsb' 0 9)) ∧
  (∀ (r : Reg) (o : BitVec 9) (s : State), ∃ t, exec (.sti r o) s = .next t ∧
    t.word (s.word (s.pc + o.signExtend 16)) = s.reg r ∧ OnlyWord (s.word (s.pc + o.signExtend 16)) s t) ∧
  ∀ (cfg : Config) (r : Reg) (o : BitVec 9) (s : State),
    (cfg.memWords ≤ (s.pc + o.signExtend 16).toNat →
      ∃ t, stiWith cfg r o s = .next t ∧ AbortedAt (s.pc + o.signExtend 16) t) ∧
    ((s.pc + o.signExtend 16).toNat < cfg.memWords → cfg.memWords ≤ (s.word (s.pc + o.signExtend 16)).toNat →
      ∃ t, stiWith cfg r o s = .next t ∧ AbortedAt (s.word (s.pc + o.signExtend 16)) t)

/-- 42_data_movement.md R102: STR; with a smaller store, the abort at the effective address. -/
def Obligations.StrStoresBasePlusOffset : Prop :=
  (∀ w : Word, w &&& 0xF000 = 0x7000 → decode w = .str (destReg w) (srcReg1 w) (w.extractLsb' 0 6)) ∧
  (∀ (r b : Reg) (o : BitVec 6) (s : State), ∃ t, exec (.str r b o) s = .next t ∧
    t.word (s.reg b + o.signExtend 16) = s.reg r ∧ OnlyWord (s.reg b + o.signExtend 16) s t) ∧
  ∀ (cfg : Config) (r b : Reg) (o : BitVec 6) (s : State), cfg.memWords ≤ (s.reg b + o.signExtend 16).toNat →
    ∃ t, strWith cfg r b o s = .next t ∧ AbortedAt (s.reg b + o.signExtend 16) t

/-! ### Control transfer -/

/-- 43_control.md R111: BR is taken exactly when the flags and the condition field share a bit, and changes nothing but
`pc`. -/
def Obligations.BrTestsTheFlags : Prop :=
  (∀ w : Word, w &&& 0xF000 = 0x0000 → decode w = .br (w.extractLsb' 9 3) (w.extractLsb' 0 9)) ∧
  ∀ (c : BitVec 3) (o : BitVec 9) (s : State), ∃ t, exec (.br c o) s = .next t ∧ OnlyPc s t ∧
    (s.cc &&& c ≠ 0b000 → t.pc = s.pc + o.signExtend 16) ∧ (s.cc &&& c = 0b000 → t.pc = s.pc)

/-- 43_control.md R112: JMP. -/
def Obligations.JmpGoesToTheBase : Prop :=
  (∀ w : Word, w &&& 0xF000 = 0xC000 → decode w = .jmp (srcReg1 w)) ∧
  ∀ (b : Reg) (s : State), ∃ t, exec (.jmp b) s = .next t ∧ t.pc = s.reg b ∧ OnlyPc s t

/-- 43_control.md R113: JSR, long form. -/
def Obligations.JsrSavesTheReturnAddress : Prop :=
  (∀ w : Word, w &&& 0xF800 = 0x4800 → decode w = .jsr (w.extractLsb' 0 11)) ∧
  ∀ (o : BitVec 11) (s : State), ∃ t, exec (.jsr o) s = .next t ∧
    t.reg 7 = s.pc ∧ t.pc = s.pc + o.signExtend 16 ∧ OnlyPcAndLink s t

/-- 43_control.md R114 (decision D13, log entry 2): JSR, register form; with base register 7 the base is the return address
just written. -/
def Obligations.JsrrReadsTheBaseAfterTheLink : Prop :=
  (∀ w : Word, w &&& 0xF800 = 0x4000 → decode w = .jsrr (srcReg1 w)) ∧
  ∀ (b : Reg) (s : State), ∃ t, exec (.jsrr b) s = .next t ∧
    t.reg 7 = s.pc ∧ (b ≠ 7 → t.pc = s.reg b) ∧ (b = 7 → t.pc = s.pc) ∧ OnlyPcAndLink s t

/-! ### The unimplemented classes -/

/-- 40_execution_cycle.md R76: RTI. -/
def Obligations.RtiHalts : Prop :=
  (∀ w : Word, w &&& 0xF000 = 0x8000 → decode w = .rti) ∧
  ∀ s : State, ∃ t, exec .rti s = .next t ∧ HaltedWith (.unimplementedInstruction 8) s t

/-- 40_execution_cycle.md R77: RES. -/
def Obligations.ResHalts : Prop :=
  (∀ w : Word, w &&& 0xF000 = 0xD000 → decode w = .res) ∧
  ∀ s : State, ∃ t, exec .res s = .next t ∧ HaltedWith (.unimplementedInstruction 13) s t

/-! ### TRAP and its services -/

/-- 44_trap.md R124 (no return address: decision D12, log entry 2; the split into service rows and a class row, which does
the same on a service's vector, is the model's, log entry 11): a TRAP word selects the service its vector names; no service
changes `pc`, the flags, register 7 or memory. -/
def Obligations.TrapSelectsTheService : Prop :=
  (∀ (w : Word) (svc : Service), w &&& 0xF000 = 0xF000 → config.trapvec svc = signExtend w 7 →
    decode w = serviceInstr svc) ∧
  (∀ w : Word, w &&& 0xF000 = 0xF000 → (∀ svc, config.trapvec svc ≠ signExtend w 7) →
    decode w = .trap (signExtend w 7)) ∧
  (∀ (svc : Service) (s : State), exec (.trap (config.trapvec svc)) s = exec (serviceInstr svc) s) ∧
  ∀ (i : Instr) (s t : State), i.opClass = .trap → exec i s = .next t →
    t.pc = s.pc ∧ t.cc = s.cc ∧ t.reg 7 = s.reg 7 ∧ SameMemory s t

/-- 44_trap.md R133: a vector that selects no service halts the machine and is reported. -/
def Obligations.UnknownVectorHalts : Prop :=
  ∀ (v : Word) (s : State), (∀ svc, config.trapvec svc ≠ v) →
    ∃ t, exec (.trap v) s = .next t ∧ HaltedWith (.unimplementedTrapVector v) s t

/-- 44_trap.md R125 (the low 8 bits of the unit: decision D9, log entry 2): GETC on a unit and on an exhausted source. -/
def Obligations.GetcReadsACharacter : Prop :=
  (∀ w : Word, w &&& 0xF07F = 0xF020 → decode w = .trapGetc) ∧
  (∀ (u : Word) (rest : List Word) (s : State), s.input = u :: rest → ∃ t, exec .trapGetc s = .next t ∧
    (t.reg 0).toNat = u.toNat % 256 ∧ t.input = rest ∧ t.output = s.output ∧ OnlyReg0AndStreams s t) ∧
  ∀ s : State, s.input = [] → s.inputClosed = true →
    ∃ t, exec .trapGetc s = .next t ∧ HaltedWith .inputExhausted s t

/-- 44_trap.md R126: OUT. -/
def Obligations.OutWritesTheLowByte : Prop :=
  (∀ w : Word, w &&& 0xF07F = 0xF021 → decode w = .trapOut) ∧
  ∀ s : State, ∃ t, exec .trapOut s = .next t ∧
    t.output = s.output ++ [.char ((s.reg 0).extractLsb' 0 8)] ∧ OnlyOutput s t

/-- 44_trap.md R127 (decision D7, log entry 2): PUTS writes the low byte of every word from `x[0]` up to the first word
0x0000, which it does not write; it does nothing where PUTS_IMPLEMENTED is false; an out-of-bounds word aborts after the
characters before it.  A string without terminator is `EndlessStringNeverHalts`. -/
def Obligations.PutsWritesTheString : Prop :=
  (∀ w : Word, w &&& 0xF07F = 0xF022 → decode w = .trapPuts) ∧
  (∀ (s : State) (k : Nat), k < 65536 → s.word (s.reg 0 + BitVec.ofNat 16 k) = 0x0000 →
    (∀ j < k, s.word (s.reg 0 + BitVec.ofNat 16 j) ≠ 0x0000) →
    ∃ t, exec .trapPuts s = .next t ∧ OnlyOutput s t ∧
      t.output = s.output ++ (List.range k).map fun j =>
        .char ((s.word (s.reg 0 + BitVec.ofNat 16 j)).extractLsb' 0 8)) ∧
  (∀ (cfg : Config) (s : State), cfg.putsImplemented = false → servicePuts cfg s = .next s) ∧
  ∀ (cfg : Config) (s : State) (k : Nat), cfg.putsImplemented = true → k < 65536 →
    cfg.memWords ≤ (s.reg 0 + BitVec.ofNat 16 k).toNat →
    (∀ j < k, (s.reg 0 + BitVec.ofNat 16 j).toNat < cfg.memWords ∧ s.word (s.reg 0 + BitVec.ofNat 16 j) ≠ 0x0000) →
    ∃ t, servicePuts cfg s = .next t ∧ AbortedAt (s.reg 0 + BitVec.ofNat 16 k) t ∧
      t.output = s.output ++ (List.range k).map fun j =>
        .char ((s.word (s.reg 0 + BitVec.ofNat 16 j)).extractLsb' 0 8)

/-- 44_trap.md R128 (the low 8 bits of the unit: decision D9, log entry 2): IN on a unit, which it echoes, and on an exhausted source. -/
def Obligations.InEchoesTheCharacter : Prop :=
  (∀ w : Word, w &&& 0xF07F = 0xF023 → decode w = .trapIn) ∧
  (∀ (u : Word) (rest : List Word) (s : State), s.input = u :: rest → ∃ t, exec .trapIn s = .next t ∧
    (t.reg 0).toNat = u.toNat % 256 ∧ t.input = rest ∧ t.output = s.output ++ [.char (u.extractLsb' 0 8)] ∧
    OnlyReg0AndStreams s t) ∧
  ∀ s : State, s.input = [] → s.inputClosed = true →
    ∃ t, exec .trapIn s = .next t ∧ HaltedWith .inputExhausted s t

/-- 44_trap.md R129 (decision D8, log entry 2): PUTSP writes two characters a word, bits 7 to 0 first, a zero in bits 15 to
8 not written; the rest as for PUTS. -/
def Obligations.PutspWritesThePackedString : Prop :=
  (∀ w : Word, w &&& 0xF07F = 0xF024 → decode w = .trapPutsp) ∧
  (∀ (s : State) (k : Nat), k < 65536 → s.word (s.reg 0 + BitVec.ofNat 16 k) = 0x0000 →
    (∀ j < k, s.word (s.reg 0 + BitVec.ofNat 16 j) ≠ 0x0000) →
    ∃ t, exec .trapPutsp s = .next t ∧ OnlyOutput s t ∧
      t.output = s.output ++ (List.range k).flatMap fun j =>
        .char ((s.word (s.reg 0 + BitVec.ofNat 16 j)).extractLsb' 0 8) ::
          if (s.word (s.reg 0 + BitVec.ofNat 16 j)).toNat < 256 then []
          else [.char ((s.word (s.reg 0 + BitVec.ofNat 16 j)).extractLsb' 8 8)]) ∧
  (∀ (cfg : Config) (s : State), cfg.putspImplemented = false → servicePutsp cfg s = .next s) ∧
  ∀ (cfg : Config) (s : State) (k : Nat), cfg.putspImplemented = true → k < 65536 →
    cfg.memWords ≤ (s.reg 0 + BitVec.ofNat 16 k).toNat →
    (∀ j < k, (s.reg 0 + BitVec.ofNat 16 j).toNat < cfg.memWords ∧ s.word (s.reg 0 + BitVec.ofNat 16 j) ≠ 0x0000) →
    ∃ t, servicePutsp cfg s = .next t ∧ AbortedAt (s.reg 0 + BitVec.ofNat 16 k) t ∧
      t.output = s.output ++ (List.range k).flatMap fun j =>
        .char ((s.word (s.reg 0 + BitVec.ofNat 16 j)).extractLsb' 0 8) ::
          if (s.word (s.reg 0 + BitVec.ofNat 16 j)).toNat < 256 then []
          else [.char ((s.word (s.reg 0 + BitVec.ofNat 16 j)).extractLsb' 8 8)]

/-- 44_trap.md R130: HALT, the clean halt, after which nothing changes (that a step not taken answers the same state is the
model's form, log entry 5). -/
def Obligations.HaltStopsTheMachine : Prop :=
  (∀ w : Word, w &&& 0xF07F = 0xF025 → decode w = .trapHalt) ∧
  ∀ s : State, ∃ t, exec .trapHalt s = .next t ∧ HaltedWith .haltTrap s t ∧ step t = .next t

/-- 44_trap.md R131 (all 16 bits of the unit: decision D9, log entry 2): INU16 on a unit and on an exhausted source. -/
def Obligations.Inu16ReadsANumber : Prop :=
  (∀ w : Word, w &&& 0xF07F = 0xF026 → decode w = .trapInu16) ∧
  (∀ (u : Word) (rest : List Word) (s : State), s.input = u :: rest → ∃ t, exec .trapInu16 s = .next t ∧
    t.reg 0 = u ∧ t.input = rest ∧ t.output = s.output ∧ OnlyReg0AndStreams s t) ∧
  ∀ s : State, s.input = [] → s.inputClosed = true →
    ∃ t, exec .trapInu16 s = .next t ∧ HaltedWith .inputExhausted s t

/-- 44_trap.md R132: OUTU16. -/
def Obligations.Outu16WritesANumber : Prop :=
  (∀ w : Word, w &&& 0xF07F = 0xF027 → decode w = .trapOutu16) ∧
  ∀ s : State, ∃ t, exec .trapOutu16 s = .next t ∧ t.output = s.output ++ [.dec (s.reg 0)] ∧ OnlyOutput s t

/-- 44_trap.md R123, with the ASCII digits of general knowledge (K10): the text of a decimal write is one to five digits,
has no leading zero, and is the value's unsigned decimal. -/
def Obligations.DecimalTextIsTheValue : Prop :=
  ∀ v : Word, 1 ≤ (eventBytes (.dec v)).length ∧ (eventBytes (.dec v)).length ≤ 5 ∧
    (∀ b ∈ eventBytes (.dec v), 0x30 ≤ b.toNat ∧ b.toNat ≤ 0x39) ∧
    (2 ≤ (eventBytes (.dec v)).length → (eventBytes (.dec v)).head? ≠ some 0x30) ∧
    (eventBytes (.dec v)).foldl (fun n b => 10 * n + (b.toNat - 0x30)) 0 = v.toNat

/-- 40_execution_cycle.md R79: with no unit and no knowledge of exhaustion, the step of GETC, IN or INU16 leaves `pc`
advanced and nothing else changed, and stays so; it completes when a unit arrives, as the instruction does on that unit, and
halts when the source closes, with nothing written, no register changed and no unit consumed.  The mark `pending` is the
model's form of the wait (log entry 6). -/
def Obligations.BlockingReadWaits : Prop :=
  ∀ (s : State) (svc : Service), s.Ready → inputService (decode (s.word s.pc)) = some svc → s.input = [] →
    s.inputClosed = false →
    ∃ t, step s = .next t ∧ t = { s with pc := s.pc + 1, pending := some svc } ∧ step t = .next t ∧
      (∀ (u : Word) (rest : List Word), ∃ t', step { t with input := u :: rest } = .next t' ∧ t'.input = rest ∧
        exec (decode (s.word s.pc)) { s with pc := s.pc + 1, input := u :: rest } = .next t') ∧
      step { t with inputClosed := true } =
        .next { s with pc := s.pc + 1, inputClosed := true, run := .halted, reason := .inputExhausted }

/-- 70_reset_and_hazards.md R168, case (4): a PUTS or PUTSP with no word 0x0000 in memory never completes and never halts: its
step, and every further step, writes the characters R127 or R129 gives the 65536 words from `x[0]`, at least one, leaves the
machine inside the service and changes nothing else (`pending`, and the lap of one step, are the model's form, log entry
7). -/
def Obligations.EndlessStringNeverHalts : Prop :=
  ∀ (s : State) (svc : Service), svc = .puts ∨ svc = .putsp → (∀ a, s.word a ≠ 0x0000) →
    (∃ t, exec (serviceInstr svc) s = .next t ∧ WritesLap svc s t ∧ s.output.length < t.output.length) ∧
    (s.run = .running → s.started = true → s.pending = some svc →
      ∃ t, step s = .next t ∧ WritesLap svc s t ∧ s.output.length < t.output.length)

/-- 10_state.md R20, its last sentence: `reason` is written at the transition out of Running and never again until reset, by a
step, by a load into any store, or by another move of the environment; reset gives `None` (on a load into an Aborted machine,
log entry 15). -/
def Obligations.ReasonIsWrittenOnce : Prop :=
  (∀ s t : State, step s = .next t → t.reason ≠ s.reason → s.run = .running ∧ t.run = .halted) ∧
  (∀ (cfg : Config) (addr v : Word) (s t : State), hostLoad cfg addr v s = .next t → t.reason ≠ s.reason →
    s.run = .running ∧ t.run = .aborted) ∧
  ∀ (m : HostMove) (s t : State), hostMove m s = .next t →
    (m = .reset → t.reason = .none) ∧ (m ≠ .reset → t.reason = s.reason ∧ t.run = s.run)
end

