-- ==== Sys2Proof/Laws/State.lean ====
section
/-! SUPPORT. One lemma per field per update of the state, and the register laws. -/

namespace Sys2Proof.Machine

variable (s : State) (r d : Reg) (v : Word)

/-! ### `setReg` -/

@[simp] theorem setReg_pc : (s.setReg d v).pc = s.pc := rfl
@[simp] theorem setReg_cc : (s.setReg d v).cc = s.cc := rfl
@[simp] theorem setReg_mem : (s.setReg d v).mem = s.mem := rfl
@[simp] theorem setReg_run : (s.setReg d v).run = s.run := rfl
@[simp] theorem setReg_reason : (s.setReg d v).reason = s.reason := rfl
@[simp] theorem setReg_started : (s.setReg d v).started = s.started := rfl
@[simp] theorem setReg_pending : (s.setReg d v).pending = s.pending := rfl
@[simp] theorem setReg_input : (s.setReg d v).input = s.input := rfl
@[simp] theorem setReg_inputClosed : (s.setReg d v).inputClosed = s.inputClosed := rfl
@[simp] theorem setReg_output : (s.setReg d v).output = s.output := rfl

/-- Reading after writing: the written register holds the value, every other keeps its own (10_state.md R11). -/
@[simp] theorem reg_setReg : (s.setReg d v).reg r = if r = d then v else s.reg r := by
  unfold State.setReg State.reg
  by_cases h : r = d
  · subst h; simp
  · have : d.val ≠ r.val := fun e => h (Fin.ext e.symm)
    simp [h, this]

theorem setReg_setReg (u : Word) : (s.setReg d u).setReg d v = s.setReg d v := by
  simp [State.setReg]

theorem setReg_comm (u : Word) (h : r ≠ d) : (s.setReg d u).setReg r v = (s.setReg r v).setReg d u := by
  have : d.val ≠ r.val := fun e => h (Fin.ext e.symm)
  simp [State.setReg, Vector.set_comm _ _ this]

/-! ### `setCC` and `writeResult` -/

@[simp] theorem setCC_cc : (setCC v s).cc = ccOf v := rfl
@[simp] theorem setCC_reg : (setCC v s).reg r = s.reg r := rfl
@[simp] theorem setCC_regs : (setCC v s).regs = s.regs := rfl
@[simp] theorem setCC_pc : (setCC v s).pc = s.pc := rfl
@[simp] theorem setCC_mem : (setCC v s).mem = s.mem := rfl
@[simp] theorem setCC_run : (setCC v s).run = s.run := rfl
@[simp] theorem setCC_reason : (setCC v s).reason = s.reason := rfl
@[simp] theorem setCC_started : (setCC v s).started = s.started := rfl
@[simp] theorem setCC_pending : (setCC v s).pending = s.pending := rfl
@[simp] theorem setCC_input : (setCC v s).input = s.input := rfl
@[simp] theorem setCC_inputClosed : (setCC v s).inputClosed = s.inputClosed := rfl
@[simp] theorem setCC_output : (setCC v s).output = s.output := rfl

@[simp] theorem writeResult_cc : (writeResult d v s).cc = ccOf v := rfl
@[simp] theorem writeResult_reg : (writeResult d v s).reg r = if r = d then v else s.reg r := by
  simp [writeResult]
@[simp] theorem writeResult_pc : (writeResult d v s).pc = s.pc := rfl
@[simp] theorem writeResult_mem : (writeResult d v s).mem = s.mem := rfl
@[simp] theorem writeResult_run : (writeResult d v s).run = s.run := rfl
@[simp] theorem writeResult_reason : (writeResult d v s).reason = s.reason := rfl
@[simp] theorem writeResult_started : (writeResult d v s).started = s.started := rfl
@[simp] theorem writeResult_pending : (writeResult d v s).pending = s.pending := rfl
@[simp] theorem writeResult_input : (writeResult d v s).input = s.input := rfl
@[simp] theorem writeResult_inputClosed : (writeResult d v s).inputClosed = s.inputClosed := rfl
@[simp] theorem writeResult_output : (writeResult d v s).output = s.output := rfl

/-! ### `raise`, `suspend`, `emit`, `saveReturn` -/

variable (e : Reason) (svc : Service) (ev : List OutEvent)

@[simp] theorem raise_run : (raise e s).run = .halted := rfl
@[simp] theorem raise_reason : (raise e s).reason = e := rfl
@[simp] theorem raise_reg : (raise e s).reg r = s.reg r := rfl
@[simp] theorem raise_pc : (raise e s).pc = s.pc := rfl
@[simp] theorem raise_cc : (raise e s).cc = s.cc := rfl
@[simp] theorem raise_mem : (raise e s).mem = s.mem := rfl
@[simp] theorem raise_started : (raise e s).started = s.started := rfl
@[simp] theorem raise_pending : (raise e s).pending = s.pending := rfl
@[simp] theorem raise_input : (raise e s).input = s.input := rfl
@[simp] theorem raise_inputClosed : (raise e s).inputClosed = s.inputClosed := rfl
@[simp] theorem raise_output : (raise e s).output = s.output := rfl

@[simp] theorem suspend_pending : (suspend svc s).pending = some svc := rfl
@[simp] theorem suspend_reg : (suspend svc s).reg r = s.reg r := rfl
@[simp] theorem suspend_pc : (suspend svc s).pc = s.pc := rfl
@[simp] theorem suspend_cc : (suspend svc s).cc = s.cc := rfl
@[simp] theorem suspend_mem : (suspend svc s).mem = s.mem := rfl
@[simp] theorem suspend_run : (suspend svc s).run = s.run := rfl
@[simp] theorem suspend_reason : (suspend svc s).reason = s.reason := rfl
@[simp] theorem suspend_started : (suspend svc s).started = s.started := rfl
@[simp] theorem suspend_input : (suspend svc s).input = s.input := rfl
@[simp] theorem suspend_inputClosed : (suspend svc s).inputClosed = s.inputClosed := rfl
@[simp] theorem suspend_output : (suspend svc s).output = s.output := rfl

@[simp] theorem emit_output : (emit ev s).output = s.output ++ ev := rfl
@[simp] theorem emit_reg : (emit ev s).reg r = s.reg r := rfl
@[simp] theorem emit_pc : (emit ev s).pc = s.pc := rfl
@[simp] theorem emit_cc : (emit ev s).cc = s.cc := rfl
@[simp] theorem emit_mem : (emit ev s).mem = s.mem := rfl
@[simp] theorem emit_run : (emit ev s).run = s.run := rfl
@[simp] theorem emit_reason : (emit ev s).reason = s.reason := rfl
@[simp] theorem emit_started : (emit ev s).started = s.started := rfl
@[simp] theorem emit_pending : (emit ev s).pending = s.pending := rfl
@[simp] theorem emit_input : (emit ev s).input = s.input := rfl
@[simp] theorem emit_inputClosed : (emit ev s).inputClosed = s.inputClosed := rfl

@[simp] theorem saveReturn_reg : (saveReturn s).reg r = if r = 7 then s.pc else s.reg r := by simp [saveReturn]
@[simp] theorem saveReturn_pc : (saveReturn s).pc = s.pc := rfl
@[simp] theorem saveReturn_cc : (saveReturn s).cc = s.cc := rfl
@[simp] theorem saveReturn_mem : (saveReturn s).mem = s.mem := rfl
@[simp] theorem saveReturn_run : (saveReturn s).run = s.run := rfl
@[simp] theorem saveReturn_reason : (saveReturn s).reason = s.reason := rfl
@[simp] theorem saveReturn_started : (saveReturn s).started = s.started := rfl
@[simp] theorem saveReturn_pending : (saveReturn s).pending = s.pending := rfl
@[simp] theorem saveReturn_input : (saveReturn s).input = s.input := rfl
@[simp] theorem saveReturn_inputClosed : (saveReturn s).inputClosed = s.inputClosed := rfl
@[simp] theorem saveReturn_output : (saveReturn s).output = s.output := rfl

/-! ### What an abort gives (60_exceptions.md R145): `run`, `reason`, and the environment's part -/

variable (addr : Word)

@[simp] theorem abort_run : (abort addr s).run = .aborted := rfl
@[simp] theorem abort_reason : (abort addr s).reason = .outOfBoundsMemoryAccess addr := rfl
@[simp] theorem abort_output : (abort addr s).output = s.output := rfl

/-! ### Updates written as records -/

@[simp] theorem withPc_reg (p : Word) : State.reg { s with pc := p } r = s.reg r := rfl
@[simp] theorem withInput_reg (us : List Word) : State.reg { s with input := us } r = s.reg r := rfl
@[simp] theorem withMem_reg (m : Memory) : State.reg { s with mem := m } r = s.reg r := rfl
@[simp] theorem withPending_reg (p : Option Service) : State.reg { s with pending := p } r = s.reg r := rfl
@[simp] theorem withCc_reg (c : BitVec 3) : State.reg { s with cc := c } r = s.reg r := rfl

end Sys2Proof.Machine
end

