-- ==== Sys2Proof/Laws/Memory.lean ====
section
/-! SUPPORT. The laws of the store: read after write, and that a write keeps the canonical form. -/

namespace Sys2Proof.Machine

@[simp] theorem read_nil (a : Nat) : Memory.read [] a = Memory.unlisted := rfl

theorem read_cons (c : Cell) (m : Memory) (a : Nat) :
    Memory.read (c :: m) a = if a = c.1 then c.2 else Memory.read m a := rfl

/-- Inserting a cell changes what its own address reads as and no other, where the address was unlisted. -/
theorem read_insert (m : Memory) (a b : Nat) (v : Word) (h : ∀ c ∈ m, c.1 ≠ a) :
    Memory.read (Memory.insert m a v) b = if b = a then v else Memory.read m b := by
  induction m with
  | nil => simp [Memory.insert, read_cons]
  | cons c m ih =>
    have hc := h c (by simp)
    have ih := ih fun d hd => h d (by simp [hd])
    unfold Memory.insert
    split
    · simp [read_cons]
    · by_cases hb : b = c.1
      · have : b ≠ a := fun e => hc (by rw [← hb, e])
        simp [read_cons, hb, hc]
      · simp [read_cons, hb, ih]

theorem read_filter (m : Memory) (a b : Nat) :
    Memory.read (m.filter (fun c => c.1 != a)) b = if b = a then Memory.unlisted else Memory.read m b := by
  induction m with
  | nil => simp
  | cons c m ih =>
    by_cases hc : c.1 = a
    · by_cases hb : b = a
      · subst hb
        simpa [hc] using ih
      · have : b ≠ c.1 := by rw [hc]; exact hb
        simp [hc, ih, hb, read_cons]
    · by_cases hb : b = c.1
      · have : b ≠ a := by rw [hb]; exact hc
        simp [hc, read_cons, hb]
      · simp [hc, read_cons, hb, ih]

/-- Read after write (20_memory.md R31, R32): the written address holds the value, every other keeps its own. -/
@[simp] theorem read_write (m : Memory) (a b : Nat) (v : Word) :
    Memory.read (Memory.write m a v) b = if b = a then v else Memory.read m b := by
  unfold Memory.write
  simp only
  split
  · rename_i h
    rw [read_filter]
    split <;> simp_all
  · rw [read_insert, read_filter]
    · split <;> rfl
    · intro c hc
      simpa using (List.mem_filter.mp hc).2

theorem mem_insert (m : Memory) (a : Nat) (v : Word) (c : Cell) :
    c ∈ Memory.insert m a v ↔ c = (a, v) ∨ c ∈ m := by
  induction m with
  | nil => simp [Memory.insert]
  | cons d m ih =>
    unfold Memory.insert
    split
    · simp
    · simp only [List.mem_cons, ih]; tauto

theorem pairwise_insert (m : Memory) (a : Nat) (v : Word) (h : m.Pairwise (fun c d => c.1 < d.1))
    (ha : ∀ c ∈ m, c.1 ≠ a) : (Memory.insert m a v).Pairwise (fun c d => c.1 < d.1) := by
  induction m with
  | nil => simp [Memory.insert]
  | cons c m ih =>
    obtain ⟨h1, h2⟩ := List.pairwise_cons.mp h
    have hc := ha c (by simp)
    unfold Memory.insert
    split
    · rename_i hlt
      refine List.pairwise_cons.mpr ⟨fun d hd => ?_, h⟩
      rcases List.mem_cons.mp hd with rfl | hd
      · exact hlt
      · exact Nat.lt_trans hlt (h1 d hd)
    · rename_i hlt
      refine List.pairwise_cons.mpr ⟨fun d hd => ?_, ih h2 fun d hd => ha d (by simp [hd])⟩
      rcases (mem_insert m a v d).mp hd with rfl | hd
      · exact Nat.lt_of_le_of_ne (Nat.le_of_not_lt hlt) hc
      · exact h1 d hd

/-- Every write inside the address space keeps the canonical form. -/
theorem wf_write (m : Memory) (a : Nat) (v : Word) (h : m.wf) (ha : a < addressSpace) : (m.write a v).wf := by
  obtain ⟨h1, h2⟩ := h
  have hf : (m.filter (fun c => c.1 != a)).Pairwise (fun c d => c.1 < d.1) := h1.filter _
  have hm : ∀ c ∈ m.filter (fun c => c.1 != a), c ∈ m ∧ c.1 ≠ a := fun c hc => by
    simpa using List.mem_filter.mp hc
  unfold Memory.write
  simp only
  split
  · exact ⟨hf, fun c hc => h2 c (hm c hc).1⟩
  · rename_i hv
    refine ⟨pairwise_insert _ a v hf fun c hc => (hm c hc).2, fun c hc => ?_⟩
    rcases (mem_insert _ a v c).mp hc with rfl | hc
    · exact ⟨ha, hv⟩
    · exact h2 c (hm c hc).1

theorem wf_reset : State.reset.mem.wf := by decide

end Sys2Proof.Machine
end

