-- ==== Sys2Proof/Laws/Ops.lean ====
section
/-! SUPPORT. One lemma per shared operation: what it can do, under the decided parameters (MEM_WORDS = 65536, so that no
access is out of bounds, 20_memory.md R33). -/

namespace Sys2Proof.Machine

@[simp] theorem config_memWords : config.memWords = 65536 := rfl

@[simp] theorem memRead_config (m : Memory) (addr : Word) : memRead config m addr = some (m.read addr.toNat) := by
  have := addr.isLt
  simp [memRead, this]

@[simp] theorem memWrite_config (m : Memory) (addr v : Word) :
    memWrite config m addr v = some (m.write addr.toNat v) := by
  have := addr.isLt
  simp [memWrite, this]

@[simp] theorem readThen_config (addr : Word) (s : State) (k : Word → Result) :
    readThen config addr s k = k (s.word addr) := by
  simp [readThen, State.word]

@[simp] theorem store_config (addr v : Word) (s : State) :
    store config addr v s = .next { s with mem := s.mem.write addr.toNat v } := by
  simp [store]

@[simp] theorem loadResult_config (dr : Reg) (addr : Word) (s : State) :
    loadResult config dr addr s = .next (writeResult dr (s.word addr) s) := by
  simp [loadResult]

@[simp] theorem fetchThen_config (s : State) (k : Word → State → Result) :
    fetchThen config s k = k (s.word s.pc) { s with pc := s.pc + 1 } := by
  simp [fetchThen]

/-- Reading a word of memory after a write to one. -/
@[simp] theorem word_write (s : State) (ea a v : Word) :
    State.word { s with mem := s.mem.write ea.toNat v } a = if a = ea then v else s.word a := by
  simp [State.word, BitVec.toNat_inj]

theorem word_congr {s t : State} (h : t.mem = s.mem) (a : Word) : t.word a = s.word a := by
  simp [State.word, h]

/-- All that a service which consumes input can do (44_trap.md R122, 40_execution_cycle.md R79). -/
theorem consumeUnit_cases (svc : Service) (k : Word → State → State) (s : State) :
    (∃ u rest, s.input = u :: rest ∧ consumeUnit svc k s = .next (k u { s with input := rest })) ∨
    (s.input = [] ∧ s.inputClosed = true ∧ consumeUnit svc k s = .next (raise .inputExhausted s)) ∨
    (s.input = [] ∧ s.inputClosed = false ∧ consumeUnit svc k s = .next (suspend svc s)) := by
  unfold consumeUnit inputUnit
  cases hi : s.input with
  | cons u rest => exact .inl ⟨u, rest, rfl, rfl⟩
  | nil => cases hc : s.inputClosed <;> simp

theorem add_one_ofNat (a : Word) (j : Nat) : a + 1 + BitVec.ofNat 16 j = a + BitVec.ofNat 16 (j + 1) := by
  rw [BitVec.ofNat_add]; ac_rfl

theorem scanString_terminator (m : Memory) (chars : Word → List OutEvent) (n : Nat) (a : Word)
    (h : m.read a.toNat = 0) : scanString config m chars (n + 1) a = .ended [] := by
  rw [scanString, memRead_config]; exact if_pos h

theorem scanString_character (m : Memory) (chars : Word → List OutEvent) (n : Nat) (a : Word)
    (h : m.read a.toNat ≠ 0) : scanString config m chars (n + 1) a =
      prependText (chars (m.read a.toNat)) (scanString config m chars n (a + 1)) := by
  rw [scanString, memRead_config]; exact if_neg h

/-- What the first word writes, then the rest of the string. -/
theorem flatMap_shift (m : Memory) (chars : Word → List OutEvent) (k : Nat) (a : Word) :
    chars (m.read a.toNat) ++ ((List.range k).flatMap fun j => chars (m.read (a + 1 + BitVec.ofNat 16 j).toNat)) =
      (List.range (k + 1)).flatMap fun j => chars (m.read (a + BitVec.ofNat 16 j).toNat) := by
  simp only [add_one_ofNat]
  rw [List.range_succ_eq_map, List.flatMap_cons, List.flatMap_map]
  simp

/-- A scan that meets a terminator after `k` words writes the characters of those words (44_trap.md R127, R129). -/
theorem scanString_ended (m : Memory) (chars : Word → List OutEvent) :
    ∀ (k n : Nat) (a : Word), k < n → m.read (a + BitVec.ofNat 16 k).toNat = 0 →
      (∀ j < k, m.read (a + BitVec.ofNat 16 j).toNat ≠ 0) →
      scanString config m chars n a =
        .ended ((List.range k).flatMap fun j => chars (m.read (a + BitVec.ofNat 16 j).toNat))
  | 0, n + 1, a, _, h0, _ => by
    simpa using scanString_terminator m chars n a (by simpa using h0)
  | k + 1, n + 1, a, hk, h0, h => by
    have ih := scanString_ended m chars k n (a + 1) (by omega) (by rw [add_one_ofNat]; exact h0)
      fun j hj => by rw [add_one_ofNat]; exact h (j + 1) (by omega)
    rw [scanString_character m chars n a (by simpa using h 0 (by omega)), ih, prependText, flatMap_shift]

/-- A scan over words none of which is a terminator does not end. -/
theorem scanString_unended (m : Memory) (chars : Word → List OutEvent) :
    ∀ (n : Nat) (a : Word), (∀ j < n, m.read (a + BitVec.ofNat 16 j).toNat ≠ 0) →
      scanString config m chars n a =
        .unended ((List.range n).flatMap fun j => chars (m.read (a + BitVec.ofNat 16 j).toNat))
  | 0, _, _ => by simp [scanString]
  | n + 1, a, h => by
    have ih := scanString_unended m chars n (a + 1) fun j hj => by rw [add_one_ofNat]; exact h (j + 1) (by omega)
    rw [scanString_character m chars n a (by simpa using h 0 (by omega)), ih, prependText, flatMap_shift]

/-- Under any parameters, a scan that meets an address out of bounds after `k` words writes the characters of those words and
stops at that address (20_memory.md R33, 44_trap.md R127). -/
theorem scanString_outOfBounds (cfg : Config) (m : Memory) (chars : Word → List OutEvent) :
    ∀ (k n : Nat) (a : Word), k < n → cfg.memWords ≤ (a + BitVec.ofNat 16 k).toNat →
      (∀ j < k, (a + BitVec.ofNat 16 j).toNat < cfg.memWords ∧ m.read (a + BitVec.ofNat 16 j).toNat ≠ 0) →
      scanString cfg m chars n a =
        .outOfBounds ((List.range k).flatMap fun j => chars (m.read (a + BitVec.ofNat 16 j).toNat))
          (a + BitVec.ofNat 16 k)
  | 0, n + 1, a, _, h0, _ => by
    have : ¬ a.toNat < cfg.memWords := by simpa using h0
    simp [scanString, memRead, this]
  | k + 1, n + 1, a, hk, h0, h => by
    have ih := scanString_outOfBounds cfg m chars k n (a + 1) (by omega) (by rw [add_one_ofNat]; exact h0)
      fun j hj => by rw [add_one_ofNat]; exact h (j + 1) (by omega)
    obtain ⟨hb, hc⟩ : a.toNat < cfg.memWords ∧ m.read a.toNat ≠ 0 := by simpa using h 0 (by omega)
    rw [scanString, memRead, if_pos hb]
    simp only
    rw [if_neg hc, ih, prependText, flatMap_shift, add_one_ofNat]

/-- Under the decided parameters a scan is never out of bounds. -/
theorem scanString_inBounds (m : Memory) (chars : Word → List OutEvent) :
    ∀ (n : Nat) (a : Word),
      (∃ text, scanString config m chars n a = .ended text) ∨ ∃ text, scanString config m chars n a = .unended text
  | 0, _ => .inr ⟨[], rfl⟩
  | n + 1, a => by
    by_cases h : m.read a.toNat = 0
    · exact .inl ⟨[], scanString_terminator m chars n a h⟩
    · rw [scanString_character m chars n a h]
      rcases scanString_inBounds m chars n (a + 1) with ⟨text, ht⟩ | ⟨text, ht⟩
      · exact .inl ⟨_, by rw [ht, prependText]⟩
      · exact .inr ⟨_, by rw [ht, prependText]⟩

/-- All that a string service can do: write text and complete, or write text and go on (R127, R129,
70_reset_and_hazards.md R168). -/
theorem writeString_cases (svc : Service) (chars : Word → List OutEvent) (s : State) :
    (∃ text, writeString config svc chars s = .next (emit text s)) ∨
    ∃ text, writeString config svc chars s = .next (suspend svc (emit text s)) := by
  unfold writeString
  rcases scanString_inBounds s.mem chars addressSpace (s.reg 0) with ⟨text, h⟩ | ⟨text, h⟩
  · exact .inl ⟨text, by rw [h]⟩
  · exact .inr ⟨text, by rw [h]⟩

@[simp] theorem servicePuts_config (s : State) : servicePuts config s = writeString config .puts putsChars s := rfl
@[simp] theorem servicePutsp_config (s : State) : servicePutsp config s = writeString config .putsp putspChars s := rfl

/-- A string service on a terminated string (44_trap.md R127, R129). -/
theorem writeString_ended (svc : Service) (chars : Word → List OutEvent) (s : State) (k : Nat) (hk : k < 65536)
    (h0 : s.word (s.reg 0 + BitVec.ofNat 16 k) = 0) (h : ∀ j < k, s.word (s.reg 0 + BitVec.ofNat 16 j) ≠ 0) :
    writeString config svc chars s =
      .next (emit ((List.range k).flatMap fun j => chars (s.word (s.reg 0 + BitVec.ofNat 16 j))) s) := by
  unfold writeString
  rw [scanString_ended s.mem chars k addressSpace (s.reg 0) hk h0 h]
  rfl

/-- A string service over memory without a terminator (70_reset_and_hazards.md R168). -/
theorem writeString_unended (svc : Service) (chars : Word → List OutEvent) (s : State) (h : ∀ a, s.word a ≠ 0) :
    writeString config svc chars s =
      .next (suspend svc (emit ((List.range 65536).flatMap fun j => chars (s.word (s.reg 0 + BitVec.ofNat 16 j))) s)) := by
  unfold writeString
  rw [scanString_unended s.mem chars addressSpace (s.reg 0) fun _ _ => h _]
  rfl

end Sys2Proof.Machine
end

