-- ==== Sys2Proof/Laws/Decode.lean ====
section
/-! SUPPORT. The tables of the decoder and their inverses (30_encoding.md R52, 44_trap.md R121). -/

namespace Sys2Proof

@[simp] theorem opmap_opcodeOf (c : OpClass) : config.opmap (config.opcodeOf c) = c := by
  cases c <;> rfl

@[simp] theorem opcodeOf_opmap (b : BitVec 4) : config.opcodeOf (config.opmap b) = b := by
  revert b; decide

@[simp] theorem serviceOf_trapvec (t : Service) : serviceOf config (config.trapvec t) = some t := by
  cases t <;> rfl

theorem trapvec_of_serviceOf {v : Word} {t : Service} (h : serviceOf config v = some t) : config.trapvec t = v := by
  have := List.find?_some h
  simpa using this

@[simp] theorem trapvecWidth_config : config.trapvecWidth = 7 := rfl

theorem config_wf : config.wf := by
  refine ⟨opcodeOf_opmap, opmap_opcodeOf, fun a b h => ?_, by decide⟩
  have := congrArg (serviceOf config) h
  simpa using this

/-! ### Fields of an encoded word -/

theorem extract_or (x y : Word) (lo w : Nat) :
    (x ||| y).extractLsb' lo w = x.extractLsb' lo w ||| y.extractLsb' lo w := by
  apply BitVec.eq_of_getLsbD_eq
  intro i hi
  simp [hi]

theorem getLsbD_place {w : Nat} (v : BitVec w) (lo i : Nat) :
    (place v lo).getLsbD i = (decide (i < 16) && decide (lo ≤ i) && v.getLsbD (i - lo)) := by
  by_cases h : i < 16
  · by_cases h2 : i < lo
    · simp [place, zext16, h, h2]
    · have h3 : i - lo < 16 := by omega
      have h4 : lo ≤ i := by omega
      simp only [place, zext16, BitVec.getLsbD_shiftLeft, BitVec.getLsbD_setWidth, h, h2, h3, h4]
      simp
  · rw [BitVec.getLsbD_of_ge _ i (Nat.le_of_not_lt h)]
    simp [h]

/-- A placed field is read back whole at its own place. -/
theorem extract_place_same {w : Nat} (v : BitVec w) (lo : Nat) (h : lo + w ≤ 16) :
    (place v lo).extractLsb' lo w = v := by
  apply BitVec.eq_of_getLsbD_eq
  intro i hi
  have : lo + i < 16 := by omega
  simp only [BitVec.getLsbD_extractLsb', getLsbD_place, hi, this]
  simp

/-- A placed field leaves every place beside it zero. -/
theorem extract_place_other {w w' : Nat} (v : BitVec w') (lo lo' : Nat) (h : lo + w ≤ lo' ∨ lo' + w' ≤ lo) :
    (place v lo').extractLsb' lo w = 0#w := by
  apply BitVec.eq_of_getLsbD_eq
  intro i hi
  simp only [BitVec.getLsbD_extractLsb', getLsbD_place, hi]
  rcases h with h | h
  · have : ¬ lo' ≤ lo + i := by omega
    simp [this]
  · have := BitVec.getLsbD_of_ge v (lo + i - lo') (by omega)
    simp [this]

theorem toFin_regField (r : Reg) : (regField r).toFin = r := rfl

theorem unsignedImm_eq_place (v : Word) (w : Nat) : unsignedImm v w = place (lowField v w) 0 := by
  simp [unsignedImm, place]

/-- A field below bit 12 leaves the opcode of a word alone. -/
theorem opcode_or_place {n : Nat} (w : Word) (v : BitVec n) (lo : Nat) (h : Nat.ble (lo + n) 12 = true) :
    opcode (w ||| place v lo) = opcode w := by
  rw [opcode, extract_or, extract_place_other v 12 lo (.inr (Nat.le_of_ble_eq_true h)), BitVec.or_zero]
  rfl

theorem opcode_opcodeField (c : OpClass) : opcode (opcodeField c) = config.opcodeOf c :=
  extract_place_same _ _ (Nat.le_of_ble_eq_true rfl)

/-- The opcode field of a word written as its class's number beside fields below bit 12. -/
theorem opcode_opcodeField_or (c : OpClass) (x : Word) (h : x.extractLsb' 12 4 = 0#4) :
    opcode (opcodeField c ||| x) = config.opcodeOf c := by
  rw [opcode, extract_or, h, opcodeField, extract_place_same _ _ (by decide), BitVec.or_zero]

theorem opcode_encodeTrap (v : Word) : opcode (encodeTrap v) = config.opcodeOf .trap := by
  rw [encodeTrap, opcode_opcodeField_or]
  rw [unsignedImm_eq_place, extract_place_other _ _ _ (by decide)]

/-! ### Words matched by a mask and a value -/

/-- Words that agree under a mask agree in every bit the mask keeps. -/
theorem getLsbD_of_mask {w M v : Word} (i : Nat) (h : w &&& M = v) (hM : M.getLsbD i = true) :
    w.getLsbD i = v.getLsbD i := by
  rw [← h]; simp [hM]

/-- Words that agree under a mask agree in every field the mask keeps whole. -/
theorem extract_of_mask {w M v : Word} (lo n : Nat) (h : w &&& M = v) (hM : ∀ i < n, M.getLsbD (lo + i) = true) :
    w.extractLsb' lo n = v.extractLsb' lo n := by
  apply BitVec.eq_of_getLsbD_eq
  intro i hi
  simp only [BitVec.getLsbD_extractLsb', getLsbD_of_mask (lo + i) h (hM i hi)]

end Sys2Proof
end

