-- ==== Sys2Proof/Laws/PerInstr.lean ====
section
/-! SUPPORT. The per-instruction family EncodeOpcode: the top four bits of an encoded instruction are its class's number
(30_encoding.md R51, R52). -/

namespace Sys2Proof.Laws.EncodeOpcode

/-- The opcode field of the encoded word is the number OPMAP gives the instruction's class. -/
def Statement (i : Instr) : Prop := opcode (encode i) = config.opcodeOf i.opClass

theorem br (c : BitVec 3) (o : BitVec 9) : Statement (.br c o) :=
  (opcode_or_place _ _ _ rfl).trans ((opcode_or_place _ _ _ rfl).trans (opcode_opcodeField _))

theorem addReg (d a b : Reg) : Statement (.addReg d a b) :=
  (opcode_or_place _ _ _ rfl).trans ((opcode_or_place _ _ _ rfl).trans ((opcode_or_place _ _ _ rfl).trans (opcode_opcodeField _)))

theorem addImm (d a : Reg) (i : BitVec 5) : Statement (.addImm d a i) :=
  (opcode_or_place _ _ _ rfl).trans ((opcode_or_place _ _ _ rfl).trans ((opcode_or_place _ _ _ rfl).trans ((opcode_or_place _ _ _ rfl).trans (opcode_opcodeField _))))

theorem ld (d : Reg) (o : BitVec 9) : Statement (.ld d o) :=
  (opcode_or_place _ _ _ rfl).trans ((opcode_or_place _ _ _ rfl).trans (opcode_opcodeField _))

theorem st (d : Reg) (o : BitVec 9) : Statement (.st d o) :=
  (opcode_or_place _ _ _ rfl).trans ((opcode_or_place _ _ _ rfl).trans (opcode_opcodeField _))

theorem jsr (o : BitVec 11) : Statement (.jsr o) :=
  (opcode_or_place _ _ _ rfl).trans ((opcode_or_place _ _ _ rfl).trans (opcode_opcodeField _))

theorem jsrr (b : Reg) : Statement (.jsrr b) := (opcode_or_place _ _ _ rfl).trans (opcode_opcodeField _)

theorem andReg (d a b : Reg) : Statement (.andReg d a b) :=
  (opcode_or_place _ _ _ rfl).trans ((opcode_or_place _ _ _ rfl).trans ((opcode_or_place _ _ _ rfl).trans (opcode_opcodeField _)))

theorem andImm (d a : Reg) (i : BitVec 5) : Statement (.andImm d a i) :=
  (opcode_or_place _ _ _ rfl).trans ((opcode_or_place _ _ _ rfl).trans ((opcode_or_place _ _ _ rfl).trans ((opcode_or_place _ _ _ rfl).trans (opcode_opcodeField _))))

theorem ldr (d b : Reg) (o : BitVec 6) : Statement (.ldr d b o) :=
  (opcode_or_place _ _ _ rfl).trans ((opcode_or_place _ _ _ rfl).trans ((opcode_or_place _ _ _ rfl).trans (opcode_opcodeField _)))

theorem str (d b : Reg) (o : BitVec 6) : Statement (.str d b o) :=
  (opcode_or_place _ _ _ rfl).trans ((opcode_or_place _ _ _ rfl).trans ((opcode_or_place _ _ _ rfl).trans (opcode_opcodeField _)))

theorem rti : Statement .rti := opcode_opcodeField _

theorem not (d a : Reg) : Statement (.not d a) :=
  (opcode_or_place _ _ _ rfl).trans ((opcode_or_place _ _ _ rfl).trans (opcode_opcodeField _))

theorem ldi (d : Reg) (o : BitVec 9) : Statement (.ldi d o) :=
  (opcode_or_place _ _ _ rfl).trans ((opcode_or_place _ _ _ rfl).trans (opcode_opcodeField _))

theorem sti (d : Reg) (o : BitVec 9) : Statement (.sti d o) :=
  (opcode_or_place _ _ _ rfl).trans ((opcode_or_place _ _ _ rfl).trans (opcode_opcodeField _))

theorem jmp (b : Reg) : Statement (.jmp b) := (opcode_or_place _ _ _ rfl).trans (opcode_opcodeField _)

theorem res : Statement .res := opcode_opcodeField _

theorem lea (d : Reg) (o : BitVec 9) : Statement (.lea d o) :=
  (opcode_or_place _ _ _ rfl).trans ((opcode_or_place _ _ _ rfl).trans (opcode_opcodeField _))

theorem trap (v : Word) : Statement (.trap v) := opcode_encodeTrap _

theorem trapGetc : Statement .trapGetc := opcode_encodeTrap _

theorem trapOut : Statement .trapOut := opcode_encodeTrap _

theorem trapPuts : Statement .trapPuts := opcode_encodeTrap _

theorem trapIn : Statement .trapIn := opcode_encodeTrap _

theorem trapPutsp : Statement .trapPutsp := opcode_encodeTrap _

theorem trapHalt : Statement .trapHalt := opcode_encodeTrap _

theorem trapInu16 : Statement .trapInu16 := opcode_encodeTrap _

theorem trapOutu16 : Statement .trapOutu16 := opcode_encodeTrap _

end Sys2Proof.Laws.EncodeOpcode
end

