-- ==== Sys2Proof/Laws/Trap.lean ====
section
/-! SUPPORT. One lemma that says all a trap service can do, and TRAP as the choice of a service. -/

namespace Sys2Proof.Machine

/-- All that a service can do (44_trap.md R124): it leaves `pc`, the flags, memory and every register but register 0; it goes on
(or is suspended, where it can be), or it halts cleanly, or it halts on an exhausted source having changed nothing. -/
theorem performService_cases (svc : Service) (s : State) : ∃ t, performService config svc s = .next t ∧
    t.pc = s.pc ∧ t.cc = s.cc ∧ t.mem = s.mem ∧ t.started = s.started ∧ (∀ r, r ≠ 0 → t.reg r = s.reg r) ∧
    ((t.run = s.run ∧ t.reason = s.reason ∧
        (t.pending = s.pending ∨ (t.pending = some svc ∧ blocks svc = true))) ∨
      (t = raise .haltTrap s ∧ svc = .halt) ∨
      (t = raise .inputExhausted s ∧ s.input = [] ∧ s.inputClosed = true ∧
        (svc = .getc ∨ svc = .inChar ∨ svc = .inu16))) := by
  match svc with
  | .getc =>
    rcases consumeUnit_cases .getc (fun u t => t.setReg 0 (zext16 (lowByte u))) s with
      ⟨u, rest, h, hc⟩ | ⟨h1, h2, hc⟩ | ⟨h1, h2, hc⟩ <;> refine ⟨_, hc, ?_⟩ <;> simp +contextual [blocks, *]
  | .inChar =>
    rcases consumeUnit_cases .inChar (fun u t => emit [.char (lowByte u)] (t.setReg 0 (zext16 (lowByte u)))) s with
      ⟨u, rest, h, hc⟩ | ⟨h1, h2, hc⟩ | ⟨h1, h2, hc⟩ <;> refine ⟨_, hc, ?_⟩ <;> simp +contextual [blocks, *]
  | .inu16 =>
    rcases consumeUnit_cases .inu16 (fun u t => t.setReg 0 u) s with
      ⟨u, rest, h, hc⟩ | ⟨h1, h2, hc⟩ | ⟨h1, h2, hc⟩ <;> refine ⟨_, hc, ?_⟩ <;> simp +contextual [blocks, *]
  | .puts =>
    rcases writeString_cases .puts putsChars s with ⟨text, hc⟩ | ⟨text, hc⟩ <;>
      refine ⟨_, hc, ?_⟩ <;> simp [blocks]
  | .putsp =>
    rcases writeString_cases .putsp putspChars s with ⟨text, hc⟩ | ⟨text, hc⟩ <;>
      refine ⟨_, hc, ?_⟩ <;> simp [blocks]
  | .out => refine ⟨_, rfl, ?_⟩; simp
  | .halt => refine ⟨_, rfl, ?_⟩; simp
  | .outu16 => refine ⟨_, rfl, ?_⟩; simp

/-- What the machine writes for one word is what R127 says. -/
theorem putsChars_eq (w : Word) : putsChars w = wordCharacters .puts w := rfl

/-- What the machine writes for one word is what R129 says. -/
theorem putspChars_eq (w : Word) : putspChars w = wordCharacters .putsp w := by
  have : highByte w = 0 ↔ w.toNat < 256 := by
    rw [← BitVec.toNat_inj]
    simp [highByte, Nat.shiftRight_eq_div_pow]
    omega
  unfold putspChars wordCharacters
  by_cases h : w.toNat < 256
  · rw [if_pos (this.mpr h), if_pos h]; rfl
  · rw [if_neg (mt this.mp h), if_neg h]; rfl

/-- The row of a service runs that service. -/
theorem exec_serviceInstr (svc : Service) (s : State) :
    exec (serviceInstr svc) s = performService config svc s := by
  cases svc <;> rfl

/-- The class row dispatches on the vector (44_trap.md R124, R133). -/
theorem exec_trap (v : Word) (s : State) :
    exec (.trap v) s = match serviceOf config v with
      | some svc => performService config svc s
      | none => .next (raise (.unimplementedTrapVector v) s) := rfl

end Sys2Proof.Machine
end

