-- ==== Sys2Proof/Tests/Slice0.lean ====
section
/-! SUPPORT. The model's own tests.  Expected results are those of the spec: its worked examples and the vectors T-… of
95_test_vectors.md.  The theorems `witness_…` show that the hypotheses of the statement of that name can be met. -/

namespace Sys2Proof.Tests

open Sys2Proof.Machine

/-! ### Helpers -/

/-- What a next state shows. -/
def look {α : Type} (f : State → α) : Result → Option α
  | .next t => some (f t)
  | .fault _ => none
  | .refused _ => none

/-- A state ready to fetch the word `w`, its other state set by `f` from the state after reset. -/
def start (f : State → State) (w : Word) : State := (f State.reset).withFetchWord 16 w.toNat

/-- The state with a word stored. -/
def poke (a v : Word) (s : State) : State := { s with mem := s.mem.write a.toNat v }

/-- The state with its flags, its program counter, or a register set. -/
def flags (c : BitVec 3) (s : State) : State := { s with cc := c }
def atPc (p : Word) (s : State) : State := { s with pc := p }
def reg (r : Reg) (v : Word) (s : State) : State := s.setReg r v

/-- An input source that delivers these units and is then exhausted. -/
def source (us : List Word) (s : State) : State := { s with input := us, inputClosed := true }

/-- A store one word short (20_memory.md R33). -/
def smaller : Config := { config with memWords := 65535 }

/-! ### Well-formedness -/

theorem test_wf_refuses_unextractable_vector : (Instr.trap 0x0100).wellFormed = false := by decide
theorem test_wf_refuses_unextractable_vector_bit6 : (Instr.trap 0x0040).wellFormed = false := by decide
theorem test_wf_refuses_service_vector : (Instr.trap 0x0025).wellFormed = false := by decide
theorem test_wf_accepts_unknown_vectors :
    (Instr.trap 0x0028).wellFormed = true ∧ (Instr.trap 0xFFC0).wellFormed = true ∧
      (Instr.addImm 7 7 31).wellFormed = true := by decide

/-! ### Decoding: words written out from R57 and 95_test_vectors.md -/

theorem test_decode_operate :
    decode 0b0001001010011011 = .addReg 1 2 3 ∧ decode 0b0001111110111111 = .addImm 7 6 31 ∧
    decode 0b0101010000000001 = .andReg 2 0 1 ∧ decode 0b0101011011110000 = .andImm 3 3 16 ∧
    decode 0b1001001001111111 = .not 1 1 := by decide

theorem test_decode_move :
    decode 0b0010001111111111 = .ld 1 511 ∧ decode 0b1010010100000000 = .ldi 2 256 ∧
    decode 0b0110010001100000 = .ldr 2 1 32 ∧ decode 0b1110001000000011 = .lea 1 3 ∧
    decode 0b0011011000000101 = .st 3 5 ∧ decode 0b1011000000000001 = .sti 0 1 ∧
    decode 0b0111000001100000 = .str 0 1 32 := by decide

theorem test_decode_control :
    decode 0b0000010000000011 = .br 0b010 3 ∧ decode 0b1100111010111111 = .jmp 2 ∧
    decode 0b0100110000000000 = .jsr 1024 ∧ decode 0b0100011010111111 = .jsrr 2 ∧
    decode 0b1000111111111111 = .rti ∧ decode 0b1101101010111100 = .res := by decide

theorem test_decode_trap :
    decode 0b1111000000100000 = .trapGetc ∧ decode 0b1111000000100001 = .trapOut ∧
    decode 0b1111000000100010 = .trapPuts ∧ decode 0b1111000000100011 = .trapIn ∧
    decode 0b1111000000100100 = .trapPutsp ∧ decode 0b1111111110100101 = .trapHalt ∧
    decode 0b1111000000100110 = .trapInu16 ∧ decode 0b1111000000100111 = .trapOutu16 ∧
    decode 0b1111000001100101 = .trap 0xFFE5 ∧ decode 0b1111000000011111 = .trap 0x001F := by decide

/-- T-DEC-5. -/
theorem test_decoder_fields :
    destReg 0xA5C3 = 2 ∧ srcReg1 0xA5C3 = 7 ∧ srcReg2 0xA5C3 = 3 ∧ opcode 0xA5C3 = 10 ∧ immModeFlag 0xA5C3 = false ∧
    longImmFlag 0xA5C3 = false ∧ condField 0xA5C3 = 0b010 ∧ signExtend 0xA5C3 7 = 0xFFC3 ∧
    signExtend 0xA5C3 11 = 0xFDC3 := by decide

/-- T-SX-1, T-SX-4, T-SX-5, T-SX-8. -/
theorem test_sign_extend :
    signExtend 0x0001 1 = 0xFFFF ∧ signExtend 0x4000 15 = 0xC000 ∧ signExtend 0x3FFF 15 = 0x3FFF ∧
    signExtend 0xABCD 8 = 0xFFCD ∧ unsignedImm 0xABCD 8 = 0x00CD := by decide

/-- R62's words. -/
theorem test_encode :
    encode (.addReg 1 2 3) = 0x1283 ∧ encode (.andImm 3 3 15) = 0x56EF ∧ encode (.not 1 1) = 0x9240 ∧
    encode (.ldr 2 1 0) = 0x6440 ∧ encode (.sti 0 1) = 0xB001 ∧ encode (.br 0b010 3) = 0x0403 ∧
    encode (.jmp 7) = 0xC1C0 ∧ encode (.jsr 2) = 0x4802 ∧ encode (.jsrr 2) = 0x4080 ∧ encode .trapHalt = 0xF025 ∧
    encode (.trap 0xFFC0) = 0xF040 := by decide

theorem test_decode_table_word :
    decodeTableWord 16 0xF025 = some .trapHalt ∧ decodeTableWord 16 0x10000 = none := by decide

/-! ### Operate instructions -/

/-- T-OP-3. -/
theorem test_add_reads_before_it_writes :
    look (fun t => (t.reg 1, t.cc, t.pc)) (step (start (reg 1 0x7FFF) 0x1241)) = some (0xFFFE, 0b100, 0x3001) := by decide

/-- T-OP-5. -/
theorem test_add_wraps :
    look (fun t => (t.reg 0, t.cc)) (step (start (reg 1 0x8000 ∘ reg 2 0x8000 ∘ flags 0b001) 0x1042)) =
      some (0x0000, 0b010) := by decide

/-- T-OP-8, T-OP-9. -/
theorem test_add_negative_immediate :
    look (fun t => (t.reg 0, t.cc)) (step (start id 0x103F)) = some (0xFFFF, 0b100) ∧
    look (fun t => (t.reg 0, t.cc)) (step (start (reg 0 0x000F) 0x1030)) = some (0xFFFF, 0b100) := by decide

/-- T-OP-12. -/
theorem test_and_disjoint :
    look (fun t => (t.reg 2, t.cc)) (step (start (reg 0 0x00F0 ∘ reg 1 0x0F0F) 0x5401)) = some (0x0000, 0b010) := by decide

/-- R89's example, and its corner case imm5 = -16. -/
theorem test_and_immediate :
    look (fun t => (t.reg 3, t.cc)) (step (start (reg 3 0xABCD) 0x56EF)) = some (0x000D, 0b001) ∧
    look (fun t => (t.reg 3, t.cc)) (step (start (reg 3 0xABCD) 0x56F0)) = some (0xABC0, 0b100) := by decide

/-- T-OP-19, T-OP-22. -/
theorem test_not :
    look (fun t => (t.reg 1, t.cc)) (step (start (reg 1 0x00FF) 0x927F)) = some (0xFF00, 0b100) ∧
    look (fun t => (t.reg 2, t.cc)) (step (start (reg 1 0x8000) 0x9440)) = some (0x7FFF, 0b001) := by decide

/-! ### Data movement -/

/-- T-MEM-6. -/
theorem test_ld_at_the_top :
    look (fun t => (t.reg 1, t.cc, t.pc)) (step (start (poke 0x0001 0x1111 ∘ atPc 0xFFFF) 0x2201)) =
      some (0x1111, 0b001, 0x0000) := by decide

/-- T-MEM-4. -/
theorem test_ld_most_negative_offset :
    look (fun t => (t.reg 1, t.cc)) (step (start (poke 0x2F01 0x0042) 0x2300)) = some (0x0042, 0b001) := by decide

/-- T-MEM-10. -/
theorem test_ldi_highest_address :
    look (fun t => (t.reg 2, t.cc)) (step (start (poke 0x3002 0xFFFF ∘ poke 0xFFFF 0x8000) 0xA401)) =
      some (0x8000, 0b100) := by decide

/-- T-MEM-12, T-MEM-15. -/
theorem test_ldr :
    look (fun t => (t.reg 1, t.cc)) (step (start (reg 1 0x4000 ∘ poke 0x4000 0xBEEF) 0x6240)) = some (0xBEEF, 0b100) ∧
    look (fun t => t.reg 2) (step (start (reg 1 0xFFFF ∘ poke 0x001E 0x0077) 0x645F)) = some 0x0077 := by decide

/-- T-MEM-18. -/
theorem test_lea_sets_zero :
    look (fun t => (t.reg 1, t.cc, t.pc)) (step (start (flags 0b001 ∘ atPc 0xFFFF) 0xE200)) =
      some (0x0000, 0b010, 0x0000) := by decide

/-- T-MEM-20, T-MEM-21. -/
theorem test_st :
    look (fun t => (t.word 0x3006, t.cc)) (step (start (reg 3 0xBEEF ∘ flags 0b010) 0x3605)) = some (0xBEEF, 0b010) ∧
    look (fun t => (t.word 0x3000, t.cc)) (step (start (reg 3 0x1111) 0x37FF)) = some (0x1111, 0b000) := by decide

/-- T-MEM-22, T-MEM-23. -/
theorem test_sti :
    look (fun t => (t.word 0x5000, t.word 0x3002, t.cc))
      (step (start (reg 0 0x0041 ∘ flags 0b100 ∘ poke 0x3002 0x5000) 0xB001)) = some (0x0041, 0x5000, 0b100) ∧
    look (fun t => t.word 0x3002) (step (start (reg 0 0x0041 ∘ poke 0x3002 0x3002) 0xB001)) = some 0x0041 := by decide

/-- T-MEM-25, T-MEM-26. -/
theorem test_str :
    look (fun t => t.word 0x4002) (step (start (reg 1 0x4000) 0x7242)) = some 0x4000 ∧
    look (fun t => t.word 0xFFF0) (step (start (reg 0 0xAAAA ∘ reg 1 0x0010) 0x7060)) = some 0xAAAA := by decide

/-- T-EXC-5 (LD with a store one word short), T-EXC-6 (the fetch). -/
theorem test_smaller_store_aborts :
    look (fun t => (t.run, t.reason)) (ldWith smaller 1 1 (atPc 0xFFFE State.reset)) =
      some (.aborted, .outOfBoundsMemoryAccess 0xFFFF) ∧
    look (fun t => (t.run, t.reason)) (fetchThen smaller (atPc 0xFFFF State.reset) fun _ t => .next t) =
      some (.aborted, .outOfBoundsMemoryAccess 0xFFFF) := by decide

/-! ### Control transfer -/

/-- T-CTL-4, T-CTL-18. -/
theorem test_br :
    look (fun t => t.pc) (step (start id 0x0E03)) = some 0x3001 ∧
    look (fun t => (t.pc, t.cc)) (step (start (flags 0b001 ∘ atPc 0xFFFE) 0x0E02)) = some (0x0001, 0b001) := by decide

/-- T-CTL-21. -/
theorem test_jmp :
    look (fun t => (t.pc, t.reg 7)) (step (start (reg 2 0x4000) 0xCEBF)) = some (0x4000, 0x0000) := by decide

/-- T-CTL-23, T-CTL-25. -/
theorem test_jsr :
    look (fun t => (t.pc, t.reg 7, t.cc)) (step (start (reg 7 0x1111 ∘ flags 0b010) 0x4802)) =
      some (0x3003, 0x3001, 0b010) ∧
    look (fun t => (t.pc, t.reg 7)) (step (start id 0x4C00)) = some (0x2C01, 0x3001) := by decide

/-- T-CTL-30, T-CTL-29. -/
theorem test_jsrr :
    look (fun t => (t.pc, t.reg 7)) (step (start (reg 2 0x5000) 0x46BF)) = some (0x5000, 0x3001) ∧
    look (fun t => (t.pc, t.reg 7)) (step (start (reg 7 0x5000) 0x41C0)) = some (0x3001, 0x3001) := by decide

/-- T-EXC-2, T-EXC-4. -/
theorem test_unimplemented :
    look (fun t => (t.pc, t.reg 1, t.cc, t.run, t.reason)) (step (start (reg 1 5 ∘ flags 0b001) 0x8FFF)) =
      some (0x3001, 5, 0b001, .halted, .unimplementedInstruction 8) ∧
    look (fun t => (t.pc, t.run, t.reason)) (step (start (atPc 0xFFFF) 0xDABC)) =
      some (0x0000, .halted, .unimplementedInstruction 13) := by decide

/-! ### TRAP -/

/-- T-TRAP-11, T-TRAP-27. -/
theorem test_unknown_vector :
    look (fun t => (t.pc, t.run, t.reason)) (step (start id 0xF040)) =
      some (0x3001, .halted, .unimplementedTrapVector 0xFFC0) ∧
    look (fun t => t.reason) (step (start id 0xF028)) = some (.unimplementedTrapVector 0x0028) := by decide

/-- T-TRAP-1, T-TRAP-2. -/
theorem test_getc :
    look (fun t => (t.reg 0, t.cc, t.input, t.output))
      (step (start (reg 0 0xFFFF ∘ flags 0b100 ∘ source [0x0041, 0x0042]) 0xF020)) =
      some (0x0041, 0b100, [0x0042], []) ∧
    look (fun t => t.reg 0) (step (start (source [0x1241]) 0xF020)) = some 0x0041 := by decide

/-- T-TRAP-3. -/
theorem test_getc_exhausted :
    look (fun t => (t.reg 0, t.pc, t.run, t.reason)) (step (start (reg 0 0xFFFF ∘ source []) 0xF020)) =
      some (0xFFFF, 0x3001, .halted, .inputExhausted) := by decide

/-- T-TRAP-14. -/
theorem test_out_keeps_the_link :
    look (fun t => (t.reg 7, t.cc, t.output)) (step (start (reg 0 0x1241 ∘ reg 7 0x1234 ∘ flags 0b001) 0xF021)) =
      some (0x1234, 0b001, [.char 0x41]) := by decide

/-- T-TRAP-20, T-TRAP-22. -/
theorem test_puts :
    look (fun t => (t.output, t.reg 0))
      (step (start (reg 0 0x3010 ∘ poke 0x3010 0x0148 ∘ poke 0x3011 0x0100 ∘ poke 0x3012 0x0021) 0xF022)) =
      some ([.char 0x48, .char 0x00, .char 0x21], 0x3010) ∧
    look (fun t => t.output) (step (start (reg 0 0xFFFF ∘ poke 0xFFFF 0x0041 ∘ poke 0 0x0042) 0xF022)) =
      some [.char 0x41, .char 0x42] := by decide

/-- T-TRAP-5, T-TRAP-6. -/
theorem test_in :
    look (fun t => (t.reg 0, t.cc, t.output)) (step (start (source [0x0061]) 0xF023)) =
      some (0x0061, 0b000, [.char 0x61]) ∧
    look (fun t => (t.reg 0, t.output, t.reason)) (step (start (reg 0 0x7777 ∘ source []) 0xF023)) =
      some (0x7777, [], .inputExhausted) := by decide

/-- T-TRAP-23, T-TRAP-24. -/
theorem test_putsp :
    look (fun t => t.output) (step (start (reg 0 0x3010 ∘ poke 0x3010 0x6548 ∘ poke 0x3011 0x0079) 0xF024)) =
      some [.char 0x48, .char 0x65, .char 0x79] ∧
    look (fun t => t.output) (step (start (reg 0 0x3010 ∘ poke 0x3010 0x4100) 0xF024)) =
      some [.char 0x00, .char 0x41] := by decide

/-- T-TRAP-10. -/
theorem test_halt :
    look (fun t => (t.pc, t.run, t.reason, t.output)) (step (start id 0xFFA5)) =
      some (0x3001, .halted, .haltTrap, []) := by decide

/-- T-TRAP-7. -/
theorem test_inu16 :
    look (fun t => (t.reg 0, t.cc)) (step (start (flags 0b010 ∘ source [0x1234]) 0xF026)) = some (0x1234, 0b010) := by
  decide

/-- T-TRAP-16, T-TRAP-17, as character streams: "65535", "0". -/
theorem test_outu16 :
    look (fun t => outputBytes t.output) (step (start (reg 0 0xFFFF) 0xF027)) =
      some [0x36, 0x35, 0x35, 0x33, 0x35] ∧
    look (fun t => outputBytes t.output) (step (start id 0xF027)) = some [0x30] := by decide

/-! ### Reset and the environment -/

/-- T-RST-1, T-RST-3, T-RST-7. -/
theorem test_reset :
    (State.reset.regs, State.reset.pc, State.reset.cc, State.reset.run, State.reset.output) =
      (Vector.replicate 8 0, 0x3000, 0b000, .running, []) ∧
    look (fun t => (t.word 0x3000, t.pc, t.run)) (hostLoad config 0x3000 0xF025 State.reset) =
      some (0xF025, 0x3000, .running) ∧
    look hostReset (step (start id 0xF025)) = some State.reset := by decide

/-- R20: with a store of 65534 words, a second load out of bounds leaves the reason of the first. -/
theorem test_reason_is_written_once :
    look (fun t => (t.run, t.reason))
      (hostLoad { config with memWords := 65534 } 0xFFFF 1 (abort 0xFFFE State.reset)) =
      some (.aborted, .outOfBoundsMemoryAccess 0xFFFE) := by decide

/-- R79 in the model's form: the wait, and its end when a unit arrives. -/
theorem test_getc_waits :
    look (fun t => (t.pc, t.pending, t.run)) (step (start id 0xF020)) = some (0x3001, some .getc, .running) ∧
    look (fun t => (t.pc, t.reg 0, t.pending))
      (step { start id 0xF020 with pc := 0x3001, pending := some .getc, input := [0x41] }) =
      some (0x3001, 0x0041, none) := by decide

/-- R163: a window of the inspection interface. -/
theorem test_inspect :
    (inspect config 0xFFFF 2 (poke 0 7 State.reset)).window = [some 0, some 7] ∧
    (inspect smaller 0xFFFE 2 State.reset).window = [some 0, none] := by decide

/-! ### Witnesses for the hypotheses of the statements -/

theorem witness_DecodeOfEncode : (Instr.trap 0x003F).wellFormed = true ∧ (Instr.trap 0xFFC0).wellFormed = true ∧
    (Instr.jsr 0x400).wellFormed = true := by decide

theorem witness_UnreadBitsAreIgnored :
    (0x129B : Word) &&& readBits (decode 0x1283) = 0x1283 &&& readBits (decode 0x1283) ∧
    (0xFFA5 : Word) &&& readBits (decode 0xF025) = 0xF025 &&& readBits (decode 0xF025) := by decide

theorem witness_ImmediateExtension :
    (0x0001 : Word).getLsbD (1 - 1) = true ∧ (0x0002 : Word).getLsbD (1 - 1) = false ∧
    (0x4000 : Word).getLsbD (15 - 1) = true ∧ (0x3FFF : Word).getLsbD (15 - 1) = false ∧
    unsignedImm 0xF0A5 7 = unsignedImm 0xF025 7 := by decide

theorem witness_TrapVectorExtraction :
    (0xF03F : Word).getLsbD 6 = false ∧ (0xF000 : Word).getLsbD 6 = false ∧ (0xF040 : Word).getLsbD 6 = true := by decide

theorem witness_IllegalWordsHalt :
    State.reset.run = .running ∧ State.reset.reason = .none ∧
    (0x8000 ≤ (0x8FFF : Word).toNat ∧ (0x8FFF : Word).toNat ≤ 0x8FFF) ∧
    (0xD000 ≤ (0xD000 : Word).toNat ∧ (0xD000 : Word).toNat ≤ 0xDFFF) ∧
    (0xF000 ≤ (0xF01F : Word).toNat ∧ serviceOf config (trapVector 0xF01F) = none) ∧
    look (fun t => t.reason) (exec (decode 0xDFFF) State.reset) = some (.unimplementedInstruction 13) ∧
    look (fun t => t.reason) (exec (decode 0xF028) State.reset) = some (.unimplementedTrapVector 0x28) := by decide

theorem witness_StepRunsTheDecodedInstruction : (start (atPc 0xFFFF) 0x1283).Ready := by decide

theorem witness_StepKeepsInvariant : State.reset.Inv ∧ (start (poke 7 1) 0xF025).Inv ∧
    State.Inv { start id 0xF020 with pending := some .getc } := by decide

theorem witness_HostMovesKeepInvariant : State.reset.Inv ∧
    ∀ m ∈ [HostMove.reset, .load 0xFFFF 1, .start, .deliver 0x41, .close],
      (look (fun _ => ()) (hostMove m State.reset)).isSome = true := by decide

theorem witness_StoppedMachineIsFrozen :
    (raise .haltTrap State.reset).run = .halted ∧ (State.reset.run = .running ∧ State.reset.started = false) ∧
    RunState.aborted = { State.reset with run := .aborted }.run := by decide

theorem witness_HaltRequests :
    Instr.trapGetc.wellFormed = true ∧ (source [] State.reset).run = .running ∧
    requestsHalt (source [] State.reset) .trapGetc = true ∧ requestsHalt (source [1] State.reset) .trapGetc = false := by
  decide

theorem witness_HaltChangesNothingElse :
    look (fun t => t.run) (exec .trapHalt State.reset) = some .halted ∧
    look (fun t => t.run) (exec .rti State.reset) = some .halted ∧
    look (fun t => t.run) (exec (.trap 0) State.reset) = some .halted ∧
    look (fun t => t.run) (exec .trapIn (source [] State.reset)) = some .halted := by decide

theorem witness_PcAdvance :
    (start (atPc 0xFFFF) 0x1283).Ready ∧ writesPc (start (atPc 0xFFFF) 0x1283) (decode 0x1283) = false ∧
    writesPc State.reset (.br 0b111 1) = false ∧
    look (fun t => t.run) (step (start (atPc 0xFFFF) 0xF025)) = some .halted := by decide

theorem witness_RegisterTable :
    (look (fun _ => ()) (exec (.jsr 1) State.reset)).isSome = true ∧ (6 : Reg) ∉ regsWritten (.jsr 1) ∧
    (1 : Reg) ∉ regsRead (.st 0 1) ∧ (0 : Reg) ∉ regsRead .trapGetc := by decide

theorem witness_FlagsOnceSetStaySet :
    State.reset.run ≠ .aborted ∧ State.reset.cc = 0b000 ∧ oneFlag (flags 0b100 State.reset).cc ∧
    (look (fun _ => ()) (step (flags 0b100 (start id 0x0E01)))).isSome = true ∧
    (flagDest (.lea 1 3)).isSome = true ∧ (look (fun _ => ()) (exec (.lea 1 3) State.reset)).isSome = true :=
  ⟨by decide, rfl, .inl rfl, by decide, rfl, rfl⟩

theorem witness_FlagWritersAndReader :
    flagDest (.ldr 7 0 1) = some 7 ∧ (look (fun _ => ()) (exec (.ldr 7 0 1) State.reset)).isSome = true ∧
    flagDest .trapGetc = none ∧ (look (fun _ => ()) (exec .trapGetc (source [1] State.reset))).isSome = true ∧
    isBr (.jsr 1) = false := by decide

theorem witness_OnlyStoresWriteMemory :
    (look (fun _ => ()) (exec (.sti 3 1) State.reset)).isSome = true ∧
    storeTarget State.reset (.sti 3 1) = some (0x0000, 3) ∧ storeTarget State.reset (.ldi 3 1) = none ∧
    (look (fun _ => ()) (exec (.ldi 3 1) State.reset)).isSome = true := by decide

/-- The state from which the witness of `StoreIsSeenByTheFetch` stores HALT: `ST R0, #1` has just been fetched at 0x3000. -/
def storing : State := reg 0 0xF025 (atPc 0x3001 (start id 0x3001))

/-- The state after that store, and the one a step later (a NOP at 0x3001). -/
def stored : State := poke 0x3002 0xF025 storing

theorem witness_StoreIsSeenByTheFetch :
    exec (.st 0 1) storing = .next stored ∧ storeTarget storing (.st 0 1) = some (0x3002, 0) ∧
    ReachesWithoutStore 0x3002 stored (atPc 0x3002 stored) ∧ (atPc 0x3002 stored).Ready ∧
    (atPc 0x3002 stored).pc = 0x3002 := by
  refine ⟨rfl, by decide, .step stored _ .here ?_ rfl, by decide, rfl⟩
  rintro ⟨-, r, h⟩
  have : storeTarget { stored with pc := stored.pc + 1 } (decode (stored.word stored.pc)) = none := by decide
  rw [this] at h
  cases h

/-- The same with nothing in between: `ST R0, #0` stores over the next instruction. -/
theorem witness_StoreIsSeenByTheFetch_at_once :
    exec (.st 0 0) storing = .next (poke 0x3001 0xF025 storing) ∧
    ReachesWithoutStore 0x3001 (poke 0x3001 0xF025 storing) (poke 0x3001 0xF025 storing) ∧
    (poke 0x3001 0xF025 storing).Ready ∧ (poke 0x3001 0xF025 storing).pc = 0x3001 :=
  ⟨rfl, .here, by decide, rfl⟩

theorem witness_OutOfBoundsAborts : smaller.memWords ≤ (0xFFFF : Word).toNat ∧ (atPc 0xFFFF State.reset).pc = 0xFFFF := by
  decide

theorem witness_CanonicalMemoriesAreEqual :
    Memory.wf [(0, 1), (65535, 2)] ∧ ∀ a : Word, Memory.read [(0, 1), (65535, 2)] a.toNat =
      Memory.read (Memory.write [(0, 1)] 65535 2) a.toNat :=
  ⟨by decide, fun _ => rfl⟩

theorem witness_LoadWritesOneWordBeforeStart :
    State.reset.started = false ∧ State.reset.run = .running ∧ smaller.memWords ≤ (0xFFFF : Word).toNat ∧
    (abort 0xFFFF State.reset).started = false ∧ (abort 0xFFFF State.reset).run ≠ .running ∧
    (start id 0).started = true := by decide

theorem witness_ReasonIsWrittenOnce :
    look (fun t => t.reason) (step (start id 0xF025)) = some .haltTrap ∧ (start id 0xF025).reason ≠ .haltTrap ∧
    look (fun t => t.reason) (hostLoad smaller 0xFFFF 1 State.reset) = some (.outOfBoundsMemoryAccess 0xFFFF) ∧
    State.reset.reason ≠ .outOfBoundsMemoryAccess 0xFFFF ∧
    (look (fun _ => ()) (hostMove .reset State.reset)).isSome = true ∧
    (look (fun _ => ()) (hostMove .start State.reset)).isSome = true := by decide

/-- The words of `AddGivesTheSum`, `AndGivesTheConjunction` and `NotGivesTheComplement`. -/
theorem witness_operate_words :
    (0x1FDF : Word) &&& 0xF020 = 0x1000 ∧ (0x1FFF : Word) &&& 0xF020 = 0x1020 ∧ (0x5FDF : Word) &&& 0xF020 = 0x5000 ∧
    (0x5FFF : Word) &&& 0xF020 = 0x5020 ∧ (0x9FFF : Word) &&& 0xF000 = 0x9000 := by decide

theorem witness_LdLoadsPcRelative : (0x2FFF : Word) &&& 0xF000 = 0x2000 ∧
    smaller.memWords ≤ ((atPc 0xFFFE State.reset).pc + (1 : BitVec 9).signExtend 16).toNat := by decide

theorem witness_LdiLoadsIndirect : (0xAFFF : Word) &&& 0xF000 = 0xA000 ∧
    smaller.memWords ≤ ((atPc 0xFFFE State.reset).pc + (1 : BitVec 9).signExtend 16).toNat ∧
    ((atPc 0xFFFE State.reset).pc + (0 : BitVec 9).signExtend 16).toNat < smaller.memWords ∧
    smaller.memWords ≤ ((poke 0xFFFE 0xFFFF State.reset).word 0xFFFE).toNat := by decide

theorem witness_LdrLoadsBasePlusOffset : (0x6FFF : Word) &&& 0xF000 = 0x6000 ∧
    smaller.memWords ≤ ((reg 1 0xFFFE State.reset).reg 1 + (1 : BitVec 6).signExtend 16).toNat := by decide

theorem witness_LeaGivesTheAddress : (0xEFFF : Word) &&& 0xF000 = 0xE000 := by decide

theorem witness_StStoresPcRelative : (0x3FFF : Word) &&& 0xF000 = 0x3000 ∧
    smaller.memWords ≤ ((atPc 0x0000 State.reset).pc + (0x1FF : BitVec 9).signExtend 16).toNat := by decide

theorem witness_StiStoresIndirect : (0xBFFF : Word) &&& 0xF000 = 0xB000 ∧
    smaller.memWords ≤ ((atPc 0xFFFE State.reset).pc + (1 : BitVec 9).signExtend 16).toNat ∧
    ((atPc 0xFFFE State.reset).pc + (0 : BitVec 9).signExtend 16).toNat < smaller.memWords ∧
    smaller.memWords ≤ ((poke 0xFFFE 0xFFFF State.reset).word 0xFFFE).toNat := by decide

theorem witness_StrStoresBasePlusOffset : (0x7FFF : Word) &&& 0xF000 = 0x7000 ∧
    smaller.memWords ≤ ((reg 1 0xFFFE State.reset).reg 1 + (1 : BitVec 6).signExtend 16).toNat := by decide

theorem witness_BrTestsTheFlags : (0x0FFF : Word) &&& 0xF000 = 0x0000 ∧
    (flags 0b010 State.reset).cc &&& 0b010 ≠ 0b000 ∧ State.reset.cc &&& 0b111 = 0b000 := by decide

/-- `JmpGoesToTheBase`, `JsrSavesTheReturnAddress`, `JsrrReadsTheBaseAfterTheLink` (base 6; base 7 is its other clause),
`RtiHalts`, `ResHalts`. -/
theorem witness_control_words :
    (0xCFFF : Word) &&& 0xF000 = 0xC000 ∧ (0x4FFF : Word) &&& 0xF800 = 0x4800 ∧ (0x47FF : Word) &&& 0xF800 = 0x4000 ∧
    (6 : Reg) ≠ 7 ∧ (0x8FFF : Word) &&& 0xF000 = 0x8000 ∧ (0xDFFF : Word) &&& 0xF000 = 0xD000 := by decide

theorem witness_TrapSelectsTheService :
    (0xFFA5 : Word) &&& 0xF000 = 0xF000 ∧ config.trapvec .halt = signExtend 0xFFA5 7 ∧
    (∀ svc ∈ allServices, config.trapvec svc ≠ signExtend 0xF040 7) ∧ (∀ svc, svc ∈ allServices) ∧
    Instr.trapGetc.opClass = .trap ∧ (look (fun _ => ()) (exec .trapGetc State.reset)).isSome = true :=
  ⟨by decide, by decide, by decide, fun svc => by cases svc <;> decide, rfl, by decide⟩

theorem witness_UnknownVectorHalts : ∀ svc, config.trapvec svc ≠ 0x0028 := fun svc => by cases svc <;> decide

/-- The words of `GetcReadsACharacter`, `OutWritesTheLowByte`, `PutsWritesTheString`, `InEchoesTheCharacter`,
`PutspWritesThePackedString`, `HaltStopsTheMachine`, `Inu16ReadsANumber` and `Outu16WritesANumber`, in that order. -/
theorem witness_service_words :
    (0xFFA0 : Word) &&& 0xF07F = 0xF020 ∧ (0xFFA1 : Word) &&& 0xF07F = 0xF021 ∧ (0xFFA2 : Word) &&& 0xF07F = 0xF022 ∧
    (0xFFA3 : Word) &&& 0xF07F = 0xF023 ∧ (0xFFA4 : Word) &&& 0xF07F = 0xF024 ∧ (0xFFA5 : Word) &&& 0xF07F = 0xF025 ∧
    (0xFFA6 : Word) &&& 0xF07F = 0xF026 ∧ (0xFFA7 : Word) &&& 0xF07F = 0xF027 := by decide

/-- `GetcReadsACharacter`, `InEchoesTheCharacter`, `Inu16ReadsANumber`: a source with a unit, and an exhausted one. -/
theorem witness_input_services :
    (source [0xFFFF] State.reset).input = 0xFFFF :: [] ∧ (source [] State.reset).input = [] ∧
    (source [] State.reset).inputClosed = true := by decide

/-- A state whose words below `n` all hold 1, in no service or suspended in one. -/
def ones (n : Nat) (p : Option Service) : State :=
  { start id 0xF022 with mem := (List.range' 0 n).map fun a => (a, 1), pending := p }

theorem read_ones (k n a : Nat) :
    Memory.read ((List.range' k n).map fun b => (b, (1 : Word))) a = if k ≤ a ∧ a < k + n then 1 else 0 := by
  induction n generalizing k with
  | zero => rw [if_neg (by omega)]; rfl
  | succ n ih =>
    rw [List.range'_succ, List.map_cons, read_cons, ih]
    by_cases h : a = k
    · rw [if_pos h, if_pos (by omega)]
    · rw [if_neg h]
      by_cases h2 : k ≤ a ∧ a < k + (n + 1)
      · rw [if_pos h2, if_pos (by omega)]
      · rw [if_neg h2, if_neg (by omega)]

theorem word_ones (n : Nat) (p : Option Service) (a : Word) :
    (ones n p).word a = if a.toNat < n then 1 else 0 := by
  show Memory.read ((List.range' 0 n).map fun b => (b, (1 : Word))) a.toNat = _
  rw [read_ones]
  simp

/-- `PutsWritesTheString` and `PutspWritesThePackedString`: the empty string, and the longest (65535 words before the terminator). -/
theorem witness_terminated_strings :
    (State.reset.word (State.reset.reg 0 + BitVec.ofNat 16 0) = 0x0000 ∧
      ∀ j < 0, State.reset.word (State.reset.reg 0 + BitVec.ofNat 16 j) ≠ 0x0000) ∧
    ((ones 65535 none).word ((ones 65535 none).reg 0 + BitVec.ofNat 16 65535) = 0x0000 ∧
      ∀ j < 65535, (ones 65535 none).word ((ones 65535 none).reg 0 + BitVec.ofNat 16 j) ≠ 0x0000) := by
  have h0 : (ones 65535 none).reg 0 = 0 := rfl
  refine ⟨⟨rfl, fun j hj => absurd hj (Nat.not_lt_zero j)⟩, ?_, fun j hj => ?_⟩
  · rw [word_ones, h0]; decide
  · rw [word_ones, h0, show (0 : Word) + BitVec.ofNat 16 j = BitVec.ofNat 16 j from BitVec.zero_add _, BitVec.toNat_ofNat, Nat.mod_eq_of_lt (by omega), if_pos hj]
    decide

/-- `PutsWritesTheString` and `PutspWritesThePackedString`: without the service, and with a store that ends at the second word of the string. -/
theorem witness_string_parameters :
    { config with putsImplemented := false }.putsImplemented = false ∧
    { config with putspImplemented := false }.putspImplemented = false ∧
    smaller.putsImplemented = true ∧ smaller.putspImplemented = true ∧
    smaller.memWords ≤ ((reg 0 0xFFFE (poke 0xFFFE 0x41 State.reset)).reg 0 + BitVec.ofNat 16 1).toNat ∧
    ∀ j < 1, ((reg 0 0xFFFE (poke 0xFFFE 0x41 State.reset)).reg 0 + BitVec.ofNat 16 j).toNat < smaller.memWords ∧
      (reg 0 0xFFFE (poke 0xFFFE 0x41 State.reset)).word
        ((reg 0 0xFFFE (poke 0xFFFE 0x41 State.reset)).reg 0 + BitVec.ofNat 16 j) ≠ 0x0000 := by decide

theorem witness_DecimalTextIsTheValue :
    eventBytes (.dec 10) = [0x31, 0x30] ∧ eventBytes (.dec 65535) = [0x36, 0x35, 0x35, 0x33, 0x35] ∧
    eventBytes (.dec 0) = [0x30] := by decide

theorem witness_BlockingReadWaits_getc :
    (start id 0xF020).Ready ∧ inputService (decode ((start id 0xF020).word (start id 0xF020).pc)) = some .getc ∧
    (start id 0xF020).input = [] ∧ (start id 0xF020).inputClosed = false := by decide

theorem witness_BlockingReadWaits_inChar :
    (start id 0xF023).Ready ∧ inputService (decode ((start id 0xF023).word (start id 0xF023).pc)) = some .inChar ∧
    (start id 0xF023).input = [] ∧ (start id 0xF023).inputClosed = false := by decide

theorem witness_BlockingReadWaits_inu16 :
    (start id 0xF026).Ready ∧ inputService (decode ((start id 0xF026).word (start id 0xF026).pc)) = some .inu16 ∧
    (start id 0xF026).input = [] ∧ (start id 0xF026).inputClosed = false := by decide

theorem ones_waits (n : Nat) (p : Option Service) :
    (ones n p).run = .running ∧ (ones n p).started = true ∧ (ones n p).pending = p := ⟨rfl, rfl, rfl⟩

theorem word_full (p : Option Service) (a : Word) : (ones 65536 p).word a = 1 := by
  rw [word_ones, if_pos a.isLt]

theorem witness_EndlessStringNeverHalts (svc : Service) :
    (∀ a, (ones 65536 (some svc)).word a ≠ 0x0000) ∧ (ones 65536 (some svc)).run = .running ∧
    (ones 65536 (some svc)).started = true ∧ (ones 65536 (some svc)).pending = some svc :=
  ⟨fun a h => absurd ((word_full _ a).symm.trans h) (by decide), ones_waits _ _⟩

end Sys2Proof.Tests
end

section
/-! SUPPORT. What a step and an instruction do to the registers and the flags (10_state.md R11 to R18): `SetCC`, the cases
of `step`, and the effect of an instruction on two states that agree on what it reads. -/

namespace Sys2Proof.Machine

/-! ### `SetCC` (R17) -/

theorem getLsbD_15_iff (v : Word) : v.getLsbD 15 = true ↔ 0x8000 ≤ v.toNat := by
  rw [← BitVec.msb_eq_getLsbD_last v, BitVec.msb_eq_decide]
  simp

theorem ccOf_of_zero {v : Word} (h : v.toNat = 0) : ccOf v = 0b010 :=
  if_pos (BitVec.eq_of_toNat_eq h)

theorem ccOf_of_negative {v : Word} (h : 0x8000 ≤ v.toNat) : ccOf v = 0b100 := by
  have hne : v ≠ 0 := by rintro rfl; simp at h
  rw [ccOf, if_neg hne, if_pos ((getLsbD_15_iff v).mpr h), flagN]

theorem ccOf_of_positive {v : Word} (h : 1 ≤ v.toNat ∧ v.toNat ≤ 0x7FFF) : ccOf v = 0b001 := by
  have hne : v ≠ 0 := by rintro rfl; simp at h
  have hsign : ¬ v.getLsbD 15 = true := by rw [getLsbD_15_iff]; omega
  rw [ccOf, if_neg hne, if_neg hsign, flagP]

theorem flagsFrom_ccOf (v : Word) : FlagsFrom v (ccOf v) :=
  ⟨ccOf_of_zero, ccOf_of_negative, ccOf_of_positive⟩

theorem oneFlag_of_flagsFrom {v : Word} {cc : BitVec 3} (h : FlagsFrom v cc) : oneFlag cc := by
  obtain ⟨hzero, hneg, hpos⟩ := h
  rcases (by omega : v.toNat = 0 ∨ 0x8000 ≤ v.toNat ∨ 1 ≤ v.toNat ∧ v.toNat ≤ 0x7FFF) with h | h | h
  · exact .inr (.inl (hzero h))
  · exact .inl (hneg h)
  · exact .inr (.inr (hpos h))

/-! ### The step -/

theorem step_of_halted {s : State} (h : s.run = .halted) : step s = .next s := by
  rw [step, h]

theorem step_of_aborted {s : State} (h : s.run = .aborted) : step s = .fault .aborted := by
  rw [step, h]

theorem step_of_not_started {s : State} (h : s.run = .running) (hst : s.started = false) : step s = .next s := by
  simp [step, h, hst]

theorem step_of_suspended {s : State} {svc : Service} (h : s.run = .running) (hst : s.started = true)
    (hp : s.pending = some svc) : step s = performService config svc { s with pending := none } := by
  simp [step, resume, h, hst, hp]

theorem step_of_ready {s : State} (h : s.Ready) :
    step s = exec (decode (s.word s.pc)) { s with pc := s.pc + 1 } := by
  obtain ⟨hrun, hst, hp⟩ := h
  simp [step, hrun, hst, hp]

/-- All that a step which answers a next state can be: none taken, a suspended service going on, or the decoded instruction
(40_execution_cycle.md R71 to R75, R79). -/
theorem step_cases {s t : State} (h : step s = .next t) :
    (t = s ∧ (s.run = .halted ∨ s.run = .running ∧ s.started = false)) ∨
    (∃ svc, s.run = .running ∧ s.started = true ∧ s.pending = some svc ∧
      performService config svc { s with pending := none } = .next t) ∨
    (s.Ready ∧ exec (decode (s.word s.pc)) { s with pc := s.pc + 1 } = .next t) := by
  have hruns : s.run = .halted ∨ s.run = .aborted ∨ s.run = .running := by cases s.run <;> simp
  rcases hruns with hrun | hrun | hrun
  · rw [step_of_halted hrun] at h
    cases h
    exact .inl ⟨rfl, .inl hrun⟩
  · simp [step_of_aborted hrun] at h
  · by_cases hst : s.started = true
    · rcases s.pending.eq_none_or_eq_some with hp | ⟨svc, hp⟩
      · exact .inr (.inr ⟨⟨hrun, hst, hp⟩, step_of_ready ⟨hrun, hst, hp⟩ ▸ h⟩)
      · exact .inr (.inl ⟨svc, hrun, hst, hp, step_of_suspended hrun hst hp ▸ h⟩)
    · have hst : s.started = false := Bool.eq_false_of_not_eq_true hst
      rw [step_of_not_started hrun hst] at h
      cases h
      exact .inl ⟨rfl, .inr ⟨hrun, hst⟩⟩

/-! ### What the forms of instructions do -/

/-- The value that `i`, where it is one of the seven instructions of R18, writes to its destination. -/
def resultOf (s : State) : Instr → Word
  | .addReg _ a b => s.reg a + s.reg b
  | .addImm _ a imm => s.reg a + immOperand imm
  | .andReg _ a b => s.reg a &&& s.reg b
  | .andImm _ a imm => s.reg a &&& immOperand imm
  | .not _ a => ~~~ s.reg a
  | .ld _ offset => s.word (pcRelative s offset)
  | .ldi _ offset => s.word (s.word (pcRelative s offset))
  | .ldr _ b offset => s.word (basePlus s b offset)
  | .lea _ offset => pcRelative s offset
  | _ => 0

theorem exec_of_flagDest {i : Instr} {d : Reg} (h : flagDest i = some d) (s : State) :
    exec i s = .next (writeResult d (resultOf s i) s) := by
  cases i <;> cases h
  case ld => exact loadResult_config ..
  case ldr => exact loadResult_config ..
  case ldi offset =>
    show readThen config (pcRelative s offset) s (fun addr => loadResult config d addr s) = _
    rw [readThen_config, loadResult_config, resultOf]
  all_goals rfl

theorem regsWritten_of_flagDest {i : Instr} {d : Reg} (h : flagDest i = some d) : regsWritten i = [d] := by
  cases i <;> cases h <;> rfl

/-- The store of a form that stores (42_data_movement.md R100 to R102). -/
theorem exec_of_storeTarget {i : Instr} {s : State} {ea : Word} {r : Reg} (h : storeTarget s i = some (ea, r)) :
    exec i s = .next { s with mem := s.mem.write ea.toNat (s.reg r) } := by
  cases i <;> cases h
  case st => exact store_config ..
  case str => exact store_config ..
  case sti offset =>
    show readThen config (pcRelative s offset) s (fun addr => store config addr (s.reg r) s) = _
    rw [readThen_config, store_config]

theorem exec_br_of_taken {cond : BitVec 3} {offset : BitVec 9} {s : State} (h : condTaken s.cc cond = true) :
    exec (.br cond offset) s = .next { s with pc := pcRelative s offset } :=
  congrArg Host.Outcome.next (if_pos h)

theorem exec_br_of_not_taken {cond : BitVec 3} {offset : BitVec 9} {s : State} (h : condTaken s.cc cond = false) :
    exec (.br cond offset) s = .next s :=
  congrArg Host.Outcome.next (if_neg (by simp [h]))

/-! ### Effects: updates that write values of their own -/

/-- The update `U` of the state writes no register outside `written`; it writes the flags only from the value it leaves in
the register `flags` names; and it takes nothing it writes from the state: states that differ in at most one register, or in
at most the flags, still do so after it. -/
structure Effect (written : List Reg) (flags : Option Reg) (U : State → State) : Prop where
  reg_eq : ∀ r ∉ written, ∀ s, (U s).reg r = s.reg r
  cc_eq : flags = none → ∀ s, (U s).cc = s.cc
  flagsFrom : ∀ d, flags = some d → ∀ s, FlagsFrom ((U s).reg d) (U s).cc
  eqButReg : ∀ r s t, s.setReg r 0 = t.setReg r 0 → (U s).setReg r 0 = (U t).setReg r 0
  eqButCc : ∀ s t : State, { s with cc := 0 } = { t with cc := 0 } → { U s with cc := 0 } = { U t with cc := 0 }

namespace Effect

variable {rs : List Reg} {U V : State → State}

theorem setReg_eqButReg (d : Reg) (v : Word) (r : Reg) {s t : State} (h : s.setReg r 0 = t.setReg r 0) :
    (s.setReg d v).setReg r 0 = (t.setReg d v).setReg r 0 := by
  by_cases hrd : r = d
  · subst hrd
    simpa only [setReg_setReg] using h
  · rw [setReg_comm s r d 0 v hrd, h, ← setReg_comm t r d 0 v hrd]

/-- An update that touches neither a register nor the flags. -/
theorem quiet (hreg : ∀ s r v, U (s.setReg r v) = (U s).setReg r v)
    (hcc : ∀ s c, U { s with cc := c } = { U s with cc := c })
    (regs_eq : ∀ s, (U s).regs = s.regs) (cc_eq : ∀ s, (U s).cc = s.cc) : Effect rs none U where
  reg_eq r _ s := congrArg (fun regs => regs[r]) (regs_eq s)
  cc_eq _ := cc_eq
  flagsFrom _ h := nomatch h
  eqButReg r s t h := by rw [← hreg, ← hreg, h]
  eqButCc s t h := by rw [← hcc, ← hcc, h]

theorem id : Effect rs none (fun s => s) :=
  quiet (fun _ _ _ => rfl) (fun _ _ => rfl) (fun _ => rfl) fun _ => rfl

theorem raise (e : Reason) : Effect rs none (raise e) :=
  quiet (fun _ _ _ => rfl) (fun _ _ => rfl) (fun _ => rfl) fun _ => rfl

theorem emit (ev : List OutEvent) : Effect rs none (emit ev) :=
  quiet (fun _ _ _ => rfl) (fun _ _ => rfl) (fun _ => rfl) fun _ => rfl

theorem suspend (svc : Service) : Effect rs none (suspend svc) :=
  quiet (fun _ _ _ => rfl) (fun _ _ => rfl) (fun _ => rfl) fun _ => rfl

theorem withPc (p : Word) : Effect rs none (fun s => { s with pc := p }) :=
  quiet (fun _ _ _ => rfl) (fun _ _ => rfl) (fun _ => rfl) fun _ => rfl

theorem withMem (m : Memory) : Effect rs none (fun s => { s with mem := m }) :=
  quiet (fun _ _ _ => rfl) (fun _ _ => rfl) (fun _ => rfl) fun _ => rfl

theorem withInput (us : List Word) : Effect rs none (fun s => { s with input := us }) :=
  quiet (fun _ _ _ => rfl) (fun _ _ => rfl) (fun _ => rfl) fun _ => rfl

theorem setReg (d : Reg) (v : Word) : Effect [d] none (fun s => s.setReg d v) where
  reg_eq r hr s := by simp [List.mem_singleton.not.mp hr]
  cc_eq _ _ := rfl
  flagsFrom _ h := nomatch h
  eqButReg r _ _ h := setReg_eqButReg d v r h
  eqButCc _ _ h := congrArg (fun s => s.setReg d v) h

theorem writeResult (d : Reg) (v : Word) : Effect [d] (some d) (writeResult d v) where
  reg_eq r hr s := by simp [List.mem_singleton.not.mp hr]
  cc_eq h := nomatch h
  flagsFrom _ h s := by cases h; simpa using flagsFrom_ccOf v
  eqButReg r _ _ h := congrArg (setCC v) (setReg_eqButReg d v r h)
  eqButCc _ _ h := congrArg (fun s => s.setReg d v) h

theorem comp (hV : Effect rs none V) (hU : Effect rs none U) : Effect rs none (fun s => V (U s)) where
  reg_eq r hr s := (hV.reg_eq r hr _).trans (hU.reg_eq r hr s)
  cc_eq h s := (hV.cc_eq h _).trans (hU.cc_eq h s)
  flagsFrom _ h := nomatch h
  eqButReg r _ _ h := hV.eqButReg r _ _ (hU.eqButReg r _ _ h)
  eqButCc _ _ h := hV.eqButCc _ _ (hU.eqButCc _ _ h)

end Effect

/-! ### The effect of an instruction on two states that agree on what it reads -/

/-- `t` agrees with `s` on the program counter, memory, the input source and the registers `read`. -/
structure AgreeOn (read : List Reg) (s t : State) : Prop where
  pc : t.pc = s.pc
  mem : t.mem = s.mem
  input : t.input = s.input
  inputClosed : t.inputClosed = s.inputClosed
  reg : ∀ r ∈ read, t.reg r = s.reg r

theorem agreeOn_refl (read : List Reg) (s : State) : AgreeOn read s s :=
  ⟨rfl, rfl, rfl, rfl, fun _ _ => rfl⟩

theorem agreeOn_setReg {read : List Reg} {r : Reg} (h : r ∉ read) (s : State) (v : Word) :
    AgreeOn read s (s.setReg r v) where
  pc := rfl
  mem := rfl
  input := rfl
  inputClosed := rfl
  reg a ha := by
    have hne : a ≠ r := fun e => h (e ▸ ha)
    simp [hne]

theorem agreeOn_withCc (read : List Reg) (s : State) (c : BitVec 3) : AgreeOn read s { s with cc := c } :=
  ⟨rfl, rfl, rfl, rfl, fun _ _ => rfl⟩

theorem AgreeOn.word_eq {read : List Reg} {s t : State} (h : AgreeOn read s t) (a : Word) : t.word a = s.word a :=
  word_congr h.mem a

theorem AgreeOn.pcRelative_eq {read : List Reg} {s t : State} (h : AgreeOn read s t) (offset : BitVec 9) :
    pcRelative t offset = pcRelative s offset := by
  rw [pcRelative, pcRelative, h.pc]

theorem AgreeOn.basePlus_eq {read : List Reg} {s t : State} (h : AgreeOn read s t) {b : Reg} (hb : b ∈ read)
    (offset : BitVec 6) : basePlus t b offset = basePlus s b offset := by
  rw [basePlus, basePlus, h.reg b hb]

/-- The outcomes `x` from `s` and `y` from `t` are one and the same effect. -/
def SameEffect (written : List Reg) (flags : Option Reg) (s t : State) (x y : Result) : Prop :=
  ∃ U, Effect written flags U ∧ x = .next (U s) ∧ y = .next (U t)

section

variable {s t : State}

theorem consumeUnit_sameEffect {rs read : List Reg} (svc : Service) (k : Word → State → State)
    (hk : ∀ u, Effect rs none (k u)) (h : AgreeOn read s t) :
    SameEffect rs none s t (consumeUnit svc k s) (consumeUnit svc k t) := by
  have hin : inputUnit t = inputUnit s := by rw [inputUnit, inputUnit, h.input, h.inputClosed]
  rw [consumeUnit, consumeUnit, hin]
  cases inputUnit s with
  | unit u rest => exact ⟨_, (hk u).comp (.withInput rest), rfl, rfl⟩
  | exhausted => exact ⟨_, .raise .inputExhausted, rfl, rfl⟩
  | waiting => exact ⟨_, .suspend svc, rfl, rfl⟩

theorem writeString_sameEffect (svc : Service) (chars : Word → List OutEvent) (h : AgreeOn [0] s t) :
    SameEffect [] none s t (writeString config svc chars s) (writeString config svc chars t) := by
  unfold writeString
  rw [h.mem, h.reg 0 (by simp)]
  rcases scanString_inBounds s.mem chars addressSpace (s.reg 0) with ⟨text, hscan⟩ | ⟨text, hscan⟩
  · rw [hscan]
    exact ⟨_, .emit text, rfl, rfl⟩
  · rw [hscan]
    exact ⟨_, .comp (.suspend svc) (.emit text), rfl, rfl⟩

theorem performService_sameEffect (svc : Service) (h : AgreeOn (serviceReads svc) s t) :
    SameEffect (serviceWrites svc) none s t (performService config svc s) (performService config svc t) := by
  cases svc with
  | getc => exact consumeUnit_sameEffect _ _ (fun _ => .setReg 0 _) h
  | inChar => exact consumeUnit_sameEffect _ _ (fun _ => .comp (.emit _) (.setReg 0 _)) h
  | inu16 => exact consumeUnit_sameEffect _ _ (fun _ => .setReg 0 _) h
  | puts => exact writeString_sameEffect _ _ h
  | putsp => exact writeString_sameEffect _ _ h
  | out => exact ⟨_, .emit [.char (lowByte (s.reg 0))], rfl, by rw [← h.reg 0 (by decide)]; rfl⟩
  | outu16 => exact ⟨_, .emit [.dec (s.reg 0)], rfl, by rw [← h.reg 0 (by decide)]; rfl⟩
  | halt => exact ⟨_, .raise .haltTrap, rfl, rfl⟩

end

theorem resultOf_eq_of_agreeOn {i : Instr} {s t : State} (h : AgreeOn (regsRead i) s t) :
    resultOf t i = resultOf s i := by
  cases i with
  | addReg _ a b | andReg _ a b => simp [resultOf, h.reg a (by simp [regsRead]), h.reg b (by simp [regsRead])]
  | addImm _ a _ | andImm _ a _ | not _ a => simp [resultOf, h.reg a (by simp [regsRead])]
  | ld | ldi | lea => simp [resultOf, h.word_eq, h.pcRelative_eq]
  | ldr _ b => simp [resultOf, h.word_eq, h.basePlus_eq (b := b) (by simp [regsRead])]
  | _ => rfl

theorem exec_store_sameEffect {i : Instr} {s t : State} {ea : Word} {r : Reg} (hs : storeTarget s i = some (ea, r))
    (ht : storeTarget t i = some (ea, r)) (hr : r ∈ regsRead i) (h : AgreeOn (regsRead i) s t) :
    SameEffect [] none s t (exec i s) (exec i t) := by
  rw [exec_of_storeTarget hs, exec_of_storeTarget ht, h.mem, h.reg r hr]
  exact ⟨_, .withMem _, rfl, rfl⟩

/-- All that an instruction does to registers and flags: on two states that agree on what its row of R12 lists as read (and,
for BR, on the flags) it is one and the same effect, on the registers its row lists as written and on the flags if it is one of
the seven of R18. -/
theorem exec_sameEffect (i : Instr) {s t : State} (h : AgreeOn (regsRead i) s t)
    (hcc : isBr i = true → t.cc = s.cc) :
    SameEffect (regsWritten i) (flagDest i) s t (exec i s) (exec i t) := by
  cases hd : flagDest i with
  | some d =>
    rw [regsWritten_of_flagDest hd, exec_of_flagDest hd, exec_of_flagDest hd, resultOf_eq_of_agreeOn h]
    exact ⟨_, .writeResult d _, rfl, rfl⟩
  | none =>
    match i with
    | .br cond offset =>
      have ht : condTaken t.cc cond = condTaken s.cc cond := by rw [hcc rfl]
      cases hs : condTaken s.cc cond with
      | true =>
        rw [exec_br_of_taken hs, exec_br_of_taken (ht.trans hs), h.pcRelative_eq]
        exact ⟨_, .withPc (pcRelative s offset), rfl, rfl⟩
      | false =>
        rw [exec_br_of_not_taken hs, exec_br_of_not_taken (ht.trans hs)]
        exact ⟨_, .id, rfl, rfl⟩
    | .jmp b => exact ⟨_, .withPc (s.reg b), rfl, by rw [← h.reg b (by simp [regsRead])]; rfl⟩
    | .jsr offset =>
      exact ⟨_, .comp (.withPc (pcRelativeLong s offset)) (.setReg 7 s.pc), rfl, by rw [pcRelativeLong, ← h.pc]; rfl⟩
    | .jsrr b =>
      have hb : (saveReturn t).reg b = (saveReturn s).reg b := by simp [h.pc, h.reg b (by simp [regsRead])]
      exact ⟨_, .comp (.withPc ((saveReturn s).reg b)) (.setReg 7 s.pc), rfl, by rw [← hb, ← h.pc]; rfl⟩
    | .st sr offset =>
      exact exec_store_sameEffect rfl (by rw [storeTarget, h.pcRelative_eq]) (by simp [regsRead]) h
    | .sti sr offset =>
      exact exec_store_sameEffect rfl (by rw [storeTarget, h.pcRelative_eq, h.word_eq]) (by simp [regsRead]) h
    | .str sr b offset =>
      exact exec_store_sameEffect rfl (by rw [storeTarget, h.basePlus_eq (by simp [regsRead])]) (by simp [regsRead]) h
    | .rti => exact ⟨_, .raise _, rfl, rfl⟩
    | .res => exact ⟨_, .raise _, rfl, rfl⟩
    | .trap v =>
      rw [exec_trap, exec_trap]
      cases hv : serviceOf config v with
      | some svc =>
        simp only [regsRead, regsWritten, hv] at h ⊢
        exact performService_sameEffect svc h
      | none =>
        simp only [regsWritten, hv]
        exact ⟨_, .raise _, rfl, rfl⟩
    | .trapGetc => exact performService_sameEffect .getc h
    | .trapOut => exact performService_sameEffect .out h
    | .trapPuts => exact performService_sameEffect .puts h
    | .trapIn => exact performService_sameEffect .inChar h
    | .trapPutsp => exact performService_sameEffect .putsp h
    | .trapHalt => exact performService_sameEffect .halt h
    | .trapInu16 => exact performService_sameEffect .inu16 h
    | .trapOutu16 => exact performService_sameEffect .outu16 h

/-! ### What one run of an instruction, and a step, does -/

theorem exec_effect {i : Instr} {s t : State} (h : exec i s = .next t) :
    ∃ U, Effect (regsWritten i) (flagDest i) U ∧ t = U s := by
  obtain ⟨U, hU, hs, -⟩ := exec_sameEffect i (agreeOn_refl _ s) fun _ => rfl
  exact ⟨U, hU, by rw [hs] at h; cases h; rfl⟩

theorem exec_reg_of_notMem {i : Instr} {s t : State} (h : exec i s = .next t) {r : Reg} (hr : r ∉ regsWritten i) :
    t.reg r = s.reg r := by
  obtain ⟨U, hU, rfl⟩ := exec_effect h
  exact hU.reg_eq r hr s

theorem exec_cc_of_flagDest_none {i : Instr} {s t : State} (h : exec i s = .next t) (hd : flagDest i = none) :
    t.cc = s.cc := by
  obtain ⟨U, hU, rfl⟩ := exec_effect h
  exact hU.cc_eq hd s

theorem exec_flagsFrom {i : Instr} {s t : State} {d : Reg} (h : exec i s = .next t) (hd : flagDest i = some d) :
    FlagsFrom (t.reg d) t.cc := by
  obtain ⟨U, hU, rfl⟩ := exec_effect h
  exact hU.flagsFrom d hd s

/-- A step leaves the flags or sets exactly one (R16). -/
theorem step_cc {s t : State} (h : step s = .next t) : t.cc = s.cc ∨ oneFlag t.cc := by
  rcases step_cases h with ⟨rfl, -⟩ | ⟨svc, -, -, -, hsvc⟩ | ⟨-, hexec⟩
  · exact .inl rfl
  · obtain ⟨u, hu, -, hcc, -⟩ := performService_cases svc { s with pending := none }
    rw [hu] at hsvc
    cases hsvc
    exact .inl hcc
  · cases hd : flagDest (decode (s.word s.pc)) with
    | none =>
      have hcc := exec_cc_of_flagDest_none hexec hd
      exact .inl hcc
    | some d => exact .inr (oneFlag_of_flagsFrom (exec_flagsFrom hexec hd))

end Sys2Proof.Machine
end

section
/-! PROOF. The statements on registers and flags (10_state.md R12, R16 to R18). -/

namespace Sys2Proof.Proofs

open Sys2Proof.Machine

/-- Settles O18: an instruction is one effect on states that agree on the registers it reads. -/
theorem registerTable : Obligations.RegisterTable := by
  refine ⟨fun i s t r h hr => exec_reg_of_notMem h hr, fun i s r v hr => ?_⟩
  obtain ⟨U, hU, hs, ht⟩ := exec_sameEffect i (agreeOn_setReg hr s v) fun _ => rfl
  have hdiff : (s.setReg r v).setReg r 0 = s.setReg r 0 := setReg_setReg s r 0 v
  rw [hs, ht]
  exact congrArg Host.Outcome.next (hU.eqButReg r _ _ hdiff)

/-- Settles O20: `SetCC(v)` overwrites the whole flag register with the flag of the sign of `v`. -/
theorem setCCSetsTheSignFlag : Obligations.SetCCSetsTheSignFlag := fun v _ =>
  ⟨flagsFrom_ccOf v, oneFlag_of_flagsFrom (flagsFrom_ccOf v), fun _ => rfl⟩

/-- Settles O19: a step leaves the flags or sets exactly one. -/
theorem flagsOnceSetStaySet : Obligations.FlagsOnceSetStaySet := by
  refine ⟨rfl, fun s t h _ hone => ?_, fun s t h _ hclear => ?_, fun i s t hsome h => ?_⟩
  · rcases step_cc h with hcc | hcc
    · rwa [hcc]
    · exact hcc
  · exact (step_cc h).imp_left fun hcc => hcc.trans hclear
  · obtain ⟨d, hd⟩ := Option.isSome_iff_exists.mp hsome
    exact oneFlag_of_flagsFrom (exec_flagsFrom h hd)

/-- Settles O21: an instruction other than BR is one effect on states that differ in the flags only. -/
theorem flagWritersAndReader : Obligations.FlagWritersAndReader := by
  refine ⟨fun i s t d hd h => exec_flagsFrom h hd, fun i s t hd h => exec_cc_of_flagDest_none h hd,
    fun i s c hbr => ?_⟩
  obtain ⟨U, hU, hs, ht⟩ := exec_sameEffect i (agreeOn_withCc _ s c) fun h => absurd (hbr.symm.trans h) (by decide)
  rw [hs, ht]
  exact congrArg Host.Outcome.next (hU.eqButCc _ _ rfl)

end Sys2Proof.Proofs
end

section
/-! SUPPORT. The bits and the numbers of the immediate fields (30_encoding.md R49, R50). -/

namespace Sys2Proof

@[simp] theorem getLsbD_lowField (op : Word) (width i : Nat) :
    (lowField op width).getLsbD i = (decide (i < width) && op.getLsbD i) := by
  simp [lowField]

theorem msb_lowField (op : Word) {width : Nat} (h : 0 < width) : (lowField op width).msb = op.getLsbD (width - 1) := by
  rw [BitVec.msb_eq_getLsbD_last, getLsbD_lowField, decide_eq_true (Nat.sub_one_lt_of_lt h), Bool.true_and]

@[simp] theorem getLsbD_unsignedImm (op : Word) (width i : Nat) :
    (unsignedImm op width).getLsbD i = (decide (i < 16) && (decide (i < width) && op.getLsbD i)) := by
  simp [unsignedImm, zext16]

/-- R50, bit by bit. -/
theorem getLsbD_signExtend (op : Word) {width : Nat} (h : 0 < width) (i : Nat) :
    (signExtend op width).getLsbD i =
      (decide (i < 16) && if i < width then op.getLsbD i else op.getLsbD (width - 1)) := by
  rw [signExtend, sext16, BitVec.getLsbD_signExtend, msb_lowField op h, getLsbD_lowField]
  by_cases hi : i < width <;> simp [hi]

/-- R49 as a mask. -/
theorem unsignedImm_eq_and (op : Word) (width : Nat) :
    unsignedImm op width = op &&& BitVec.ofNat 16 (2 ^ width - 1) := by
  apply BitVec.eq_of_getLsbD_eq
  intro i hi
  rw [getLsbD_unsignedImm, BitVec.getLsbD_and, BitVec.getLsbD_ofNat, Nat.testBit_two_pow_sub_one]
  simp only [hi, decide_true, Bool.true_and, Bool.and_comm]

/-- `unsignedImm` loses nothing of its field. -/
theorem lowField_eq_setWidth_unsignedImm (op : Word) {width : Nat} (h : width ≤ 16) :
    lowField op width = (unsignedImm op width).setWidth width := by
  rw [unsignedImm, zext16, BitVec.setWidth_setWidth_of_le _ h, BitVec.setWidth_eq]

theorem toNat_unsignedImm (op : Word) {width : Nat} (h : width ≤ 16) :
    (unsignedImm op width).toNat = (lowField op width).toNat :=
  BitVec.toNat_setWidth_of_le h

theorem unsignedImm_signExtend (op : Word) {width : Nat} (h : 0 < width) :
    unsignedImm (signExtend op width) width = unsignedImm op width := by
  apply BitVec.eq_of_getLsbD_eq
  intro i hi
  rw [getLsbD_unsignedImm, getLsbD_unsignedImm, getLsbD_signExtend op h]
  by_cases hw : i < width <;> simp [hi, hw]

theorem signExtend_eq_unsignedImm (op : Word) {width : Nat} (h : 0 < width) (hclear : op.getLsbD (width - 1) = false) :
    signExtend op width = unsignedImm op width :=
  BitVec.signExtend_eq_setWidth_of_msb_false ((msb_lowField op h).trans hclear)

theorem signExtend_eq_or_ones (op : Word) {width : Nat} (h : 0 < width) (hset : op.getLsbD (width - 1) = true) :
    signExtend op width = unsignedImm op width ||| (0xFFFF#16 <<< width) := by
  apply BitVec.eq_of_getLsbD_eq
  intro i hi
  have hones : (0xFFFF#16).getLsbD (i - width) = true := by
    rw [show 0xFFFF#16 = BitVec.allOnes 16 from rfl, BitVec.getLsbD_allOnes, decide_eq_true (by omega)]
  rw [getLsbD_signExtend op h, BitVec.getLsbD_or, BitVec.getLsbD_shiftLeft, getLsbD_unsignedImm, hones, hset]
  by_cases hw : i < width <;> simp [hi, hw]

theorem toInt_signExtend (op : Word) {width : Nat} (h : 0 < width) (h16 : width ≤ 16)
    (hset : op.getLsbD (width - 1) = true) :
    (signExtend op width).toInt = (unsignedImm op width).toNat - 2 ^ width := by
  have hmsb : (lowField op width).msb = true := (msb_lowField op h).trans hset
  rw [signExtend, sext16, BitVec.toInt_signExtend_of_le h16, BitVec.toInt_eq_msb_cond, if_pos hmsb,
    toNat_unsignedImm op h16]
  norm_cast

theorem signExtend_congr {op op' : Word} {width : Nat} (h : width ≤ 16)
    (heq : unsignedImm op' width = unsignedImm op width) : signExtend op' width = signExtend op width := by
  rw [signExtend, signExtend, lowField_eq_setWidth_unsignedImm op' h, heq, ← lowField_eq_setWidth_unsignedImm op h]

end Sys2Proof
end

section
/-! PROOF. The statements on the encoding (30_encoding.md). -/

namespace Sys2Proof.Proofs

/-- Settles O6: a mask for R49, and for R50 the bits of the extension and the field it comes from. -/
theorem immediateExtension : Obligations.ImmediateExtension := by
  refine ⟨fun op width _ => unsignedImm_eq_and op width, fun op width (hpos : 0 < width) h15 => ?_⟩
  have h16 : width ≤ 16 := Nat.le_succ_of_le h15
  refine ⟨fun i hi => ?low, fun i hw hi => ?high, unsignedImm_signExtend op hpos, signExtend_eq_unsignedImm op hpos,
    fun hset => ⟨signExtend_eq_or_ones op hpos hset, toInt_signExtend op hpos h16 hset⟩, fun _ => signExtend_congr h16⟩
  case low =>
    rw [getLsbD_signExtend op hpos, if_pos hi, decide_eq_true (Nat.lt_of_lt_of_le hi h16), Bool.true_and]
  case high =>
    rw [getLsbD_signExtend op hpos, if_neg (Nat.not_lt.mpr hw), decide_eq_true hi, Bool.true_and]

end Sys2Proof.Proofs
end

section
/-! SUPPORT. The run state an instruction answers (40_execution_cycle.md R75), and the words of the two unimplemented classes
(R76, R77). -/

namespace Sys2Proof

theorem opcode_of_mask {w v : Word} (h : w &&& 0xF000 = v) : opcode w = opcode v :=
  extract_of_mask 12 4 h (by decide)

theorem decode_of_opmap_rti {w : Word} (h : config.opmap (opcode w) = .rti) : decode w = .rti := by
  rw [decode, h]

theorem decode_of_opmap_res {w : Word} (h : config.opmap (opcode w) = .res) : decode w = .res := by
  rw [decode, h]

theorem serviceOf_of_wellFormed_trap {v : Word} (h : (Instr.trap v).wellFormed = true) : serviceOf config v = none := by
  have hboth : vectorInRange v = true ∧ (serviceOf config v).isNone = true := by
    simpa only [Instr.wellFormed, Bool.and_eq_true] using h
  exact Option.isNone_iff_eq_none.mp hboth.2

end Sys2Proof

namespace Sys2Proof.Machine

theorem haltedWith_raise (e : Reason) (s : State) : HaltedWith e s (raise e s) :=
  ⟨rfl, rfl, fun _ => rfl, rfl, rfl, fun _ => rfl, rfl, rfl, ⟨rfl, rfl⟩, rfl⟩

/-- A service whose effect on a unit leaves `run` alone halts exactly on an exhausted source (44_trap.md R122). -/
theorem consumeUnit_run (svc : Service) (k : Word → State → State) (hk : ∀ u t, (k u t).run = t.run) (s : State) :
    ∃ t, consumeUnit svc k s = .next t ∧ t.run = if s.input.isEmpty && s.inputClosed then .halted else s.run := by
  rcases consumeUnit_cases svc k s with ⟨u, rest, hin, hc⟩ | ⟨hin, hclosed, hc⟩ | ⟨hin, hopen, hc⟩
  · exact ⟨_, hc, by simp [hk, hin]⟩
  · exact ⟨_, hc, by simp [hin, hclosed]⟩
  · exact ⟨_, hc, by simp [hin, hopen]⟩

theorem writeString_run (svc : Service) (chars : Word → List OutEvent) (s : State) :
    ∃ t, writeString config svc chars s = .next t ∧ t.run = s.run := by
  rcases writeString_cases svc chars s with ⟨text, h⟩ | ⟨text, h⟩
  · exact ⟨_, h, rfl⟩
  · exact ⟨_, h, rfl⟩

/-- The services that request Halted are HALT and, on an exhausted source, the three that consume input. -/
theorem performService_run (svc : Service) (s : State) : ∃ t, performService config svc s = .next t ∧
    t.run = if requestsHalt s (serviceInstr svc) then .halted else s.run := by
  cases svc with
  | getc | inChar | inu16 =>
    rw [performService]
    exact consumeUnit_run _ _ (fun _ _ => by rfl) s
  | puts | putsp => exact writeString_run _ _ s
  | out | outu16 | halt => exact ⟨_, rfl, rfl⟩

theorem requestsHalt_of_flagDest {i : Instr} {d : Reg} (h : flagDest i = some d) (s : State) :
    requestsHalt s i = false := by
  cases i <;> cases h <;> rfl

theorem exec_store_run {i : Instr} {s : State} {ea : Word} {r : Reg} (h : storeTarget s i = some (ea, r)) :
    ∃ t, exec i s = .next t ∧ t.run = s.run :=
  ⟨_, exec_of_storeTarget h, rfl⟩

/-- Every well-formed instruction answers a next state, Halted where it requests that and otherwise with `run` unchanged. -/
theorem exec_run {i : Instr} (hwf : i.wellFormed = true) (s : State) :
    ∃ t, exec i s = .next t ∧ t.run = if requestsHalt s i then .halted else s.run := by
  cases hd : flagDest i with
  | some d => exact ⟨_, exec_of_flagDest hd s, by rw [requestsHalt_of_flagDest hd]; rfl⟩
  | none =>
    match i with
    | .br cond offset =>
      cases ht : condTaken s.cc cond with
      | true => exact ⟨_, exec_br_of_taken ht, rfl⟩
      | false => exact ⟨_, exec_br_of_not_taken ht, rfl⟩
    | .jmp _ | .jsr _ | .jsrr _ => exact ⟨_, rfl, rfl⟩
    | .st _ _ | .sti _ _ | .str _ _ _ => exact exec_store_run rfl
    | .rti | .res => exact ⟨_, rfl, rfl⟩
    | .trap v =>
      rw [exec_trap, serviceOf_of_wellFormed_trap hwf]
      exact ⟨_, rfl, rfl⟩
    | .trapGetc => exact performService_run .getc s
    | .trapOut => exact performService_run .out s
    | .trapPuts => exact performService_run .puts s
    | .trapIn => exact performService_run .inChar s
    | .trapPutsp => exact performService_run .putsp s
    | .trapHalt => exact performService_run .halt s
    | .trapInu16 => exact performService_run .inu16 s
    | .trapOutu16 => exact performService_run .outu16 s

end Sys2Proof.Machine
end

section
/-! PROOF. The statements on halting in the execution cycle (40_execution_cycle.md R75 to R77). -/

namespace Sys2Proof.Proofs

open Sys2Proof.Machine

/-- Settles O15: an instruction that does not request Halted leaves `run` as it was. -/
theorem haltRequests : Obligations.HaltRequests := by
  intro i s hwf hrunning
  obtain ⟨t, hexec, hrun⟩ := exec_run hwf s
  refine ⟨t, hexec, fun hreq => ?_, fun hreq => ?_⟩
  · rw [hrun, hreq, if_pos rfl]
  · rw [hrun, hreq, hrunning, if_neg Bool.false_ne_true]

/-- Settles O43: the opcode field alone decides the class, and RTI raises with the class's number. -/
theorem rtiHalts : Obligations.RtiHalts :=
  ⟨fun _ h => decode_of_opmap_rti (congrArg config.opmap (opcode_of_mask h)),
    fun s => ⟨_, rfl, haltedWith_raise (.unimplementedInstruction 8) s⟩⟩

/-- Settles O44: the opcode field alone decides the class, and RES raises with the class's number. -/
theorem resHalts : Obligations.ResHalts :=
  ⟨fun _ h => decode_of_opmap_res (congrArg config.opmap (opcode_of_mask h)),
    fun s => ⟨_, rfl, haltedWith_raise (.unimplementedInstruction 13) s⟩⟩

end Sys2Proof.Proofs
end

section
/-! SUPPORT. The instructions that write a result to a register and set the flags from it (10_state.md R18), the words of the
operate classes (30_encoding.md R57), and their second operand (41_operate.md R85). -/

namespace Sys2Proof

/-! ### The words of ADD, AND and NOT -/

theorem opcode_of_formMask {w v : Word} (h : w &&& 0xF020 = v) : opcode w = opcode v :=
  extract_of_mask 12 4 h (by decide)

theorem immModeFlag_of_formMask {w v : Word} (h : w &&& 0xF020 = v) : immModeFlag w = immModeFlag v :=
  getLsbD_of_mask 5 h rfl

theorem decode_add_of_formMask {w v : Word} (h : w &&& 0xF020 = v) (hadd : config.opmap (opcode v) = .add) :
    decode w = if immModeFlag v then .addImm (destReg w) (srcReg1 w) (lowField w 5)
      else .addReg (destReg w) (srcReg1 w) (srcReg2 w) := by
  rw [decode, opcode_of_formMask h, hadd, immModeFlag_of_formMask h]

theorem decode_and_of_formMask {w v : Word} (h : w &&& 0xF020 = v) (hand : config.opmap (opcode v) = .and) :
    decode w = if immModeFlag v then .andImm (destReg w) (srcReg1 w) (lowField w 5)
      else .andReg (destReg w) (srcReg1 w) (srcReg2 w) := by
  rw [decode, opcode_of_formMask h, hand, immModeFlag_of_formMask h]

theorem decode_of_opmap_not {w : Word} (h : config.opmap (opcode w) = .not) :
    decode w = .not (destReg w) (srcReg1 w) := by
  rw [decode, h]

/-! ### The sign extension of a field, as a number and bit by bit -/

theorem toNat_eq_toInt_emod (v : Word) : (v.toNat : Int) = v.toInt % 65536 := by
  rw [BitVec.toInt_eq_toNat_cond]
  split <;> omega

/-- Adding a sign-extended field adds its signed value modulo `2^16`. -/
theorem toNat_add_sext16 {n : Nat} (h : n ≤ 16) (x : Word) (v : BitVec n) :
    ((x + sext16 v).toNat : Int) = (x.toNat + v.toInt) % 65536 := by
  have hv : (sext16 v).toInt = v.toInt := BitVec.toInt_signExtend_of_le h
  have hmod := toNat_eq_toInt_emod (sext16 v)
  rw [BitVec.toNat_add]
  omega

/-- Above its top bit a sign-extended field repeats that bit. -/
theorem getLsbD_sext16 {n : Nat} (v : BitVec (n + 1)) {k : Nat} (hk : k < 16) :
    (sext16 v).getLsbD k = v.getLsbD (min k n) := by
  rw [sext16, BitVec.getLsbD_signExtend, decide_eq_true hk, Bool.true_and]
  by_cases hfield : k < n + 1
  · rw [if_pos hfield, Nat.min_eq_left (Nat.le_of_lt_succ hfield)]
  · rw [if_neg hfield, Nat.min_eq_right (by omega), BitVec.msb_eq_getLsbD_last, Nat.add_sub_cancel]

end Sys2Proof

namespace Sys2Proof.Machine

theorem onlyRegAndFlags_writeResult (d : Reg) (v : Word) (s : State) : OnlyRegAndFlags d s (writeResult d v s) :=
  ⟨fun r hr => by rw [writeResult_reg, if_neg hr], rfl, fun _ => rfl, ⟨rfl, rfl, rfl, rfl⟩, ⟨rfl, rfl⟩, rfl⟩

/-- The instructions of R18 complete from every state, write their result and its flags, and change nothing else. -/
theorem exec_writes_resultOf {i : Instr} {d : Reg} (h : flagDest i = some d) (s : State) :
    ∃ t, exec i s = .next t ∧ t.reg d = resultOf s i ∧ FlagsFrom (t.reg d) t.cc ∧ OnlyRegAndFlags d s t :=
  ⟨_, exec_of_flagDest h s, by rw [writeResult_reg, if_pos rfl], exec_flagsFrom (exec_of_flagDest h s) h,
    onlyRegAndFlags_writeResult d _ s⟩

end Sys2Proof.Machine
end

section
/-! PROOF. The statements on the operate instructions (41_operate.md). -/

namespace Sys2Proof.Proofs

open Sys2Proof.Machine

/-- Settles O29: the sum of the operands as read before the write (R85), the immediate by its signed value. -/
theorem addGivesTheSum : Obligations.AddGivesTheSum := by
  refine ⟨fun w h => decode_add_of_formMask h rfl, fun d a b s => ?regForm, fun w h => decode_add_of_formMask h rfl,
    fun d a imm s => ?immForm⟩
  case regForm =>
    obtain ⟨t, hexec, hvalue, hflags, hframe⟩ := exec_writes_resultOf (i := .addReg d a b) rfl s
    exact ⟨t, hexec, by rw [hvalue, resultOf, BitVec.toNat_add], hflags, hframe⟩
  case immForm =>
    obtain ⟨t, hexec, hvalue, hflags, hframe⟩ := exec_writes_resultOf (i := .addImm d a imm) rfl s
    exact ⟨t, hexec, by rw [hvalue, resultOf, immOperand, toNat_add_sext16 (by decide)], hflags, hframe⟩

/-- Settles O30: bit by bit, with bit 4 of the immediate standing for all bits above it. -/
theorem andGivesTheConjunction : Obligations.AndGivesTheConjunction := by
  refine ⟨fun w h => decode_and_of_formMask h rfl, fun d a b s => ?regForm, fun w h => decode_and_of_formMask h rfl,
    fun d a imm s => ?immForm⟩
  case regForm =>
    obtain ⟨t, hexec, hvalue, hflags, hframe⟩ := exec_writes_resultOf (i := .andReg d a b) rfl s
    exact ⟨t, hexec, fun k => by rw [hvalue, resultOf, BitVec.getLsbD_and], hflags, hframe⟩
  case immForm =>
    obtain ⟨t, hexec, hvalue, hflags, hframe⟩ := exec_writes_resultOf (i := .andImm d a imm) rfl s
    refine ⟨t, hexec, fun k hk => ?_, hflags, hframe⟩
    rw [hvalue, resultOf, BitVec.getLsbD_and, immOperand, getLsbD_sext16 imm hk]

/-- Settles O31: the opcode field alone decides the class, and the complement is taken as a number and bit by bit. -/
theorem notGivesTheComplement : Obligations.NotGivesTheComplement := by
  refine ⟨fun w h => decode_of_opmap_not (congrArg config.opmap (opcode_of_mask h)), fun d a s => ?_⟩
  obtain ⟨t, hexec, hvalue, hflags, hframe⟩ := exec_writes_resultOf (i := .not d a) rfl s
  refine ⟨t, hexec, ?number, fun k hk => ?bits, hflags, hframe⟩
  case number => rw [hvalue, resultOf, BitVec.toNat_not]
  case bits => rw [hvalue, resultOf, BitVec.getLsbD_not, decide_eq_true hk, Bool.true_and]

end Sys2Proof.Proofs
end

section
/-! SUPPORT. The words of the data-movement classes (30_encoding.md R57), the instructions that store a register (20_memory.md
R36), and where an access to a smaller store aborts (20_memory.md R33). -/

namespace Sys2Proof

/-! ### The words of LD, LDI, LDR, LEA, ST, STI and STR -/

theorem opmap_of_mask {w v : Word} (h : w &&& 0xF000 = v) : config.opmap (opcode w) = config.opmap (opcode v) :=
  congrArg config.opmap (opcode_of_mask h)

theorem decode_of_opmap_ld {w : Word} (h : config.opmap (opcode w) = .ld) :
    decode w = .ld (destReg w) (lowField w 9) := by
  rw [decode, h]

theorem decode_of_opmap_ldi {w : Word} (h : config.opmap (opcode w) = .ldi) :
    decode w = .ldi (destReg w) (lowField w 9) := by
  rw [decode, h]

theorem decode_of_opmap_ldr {w : Word} (h : config.opmap (opcode w) = .ldr) :
    decode w = .ldr (destReg w) (srcReg1 w) (lowField w 6) := by
  rw [decode, h]

theorem decode_of_opmap_lea {w : Word} (h : config.opmap (opcode w) = .lea) :
    decode w = .lea (destReg w) (lowField w 9) := by
  rw [decode, h]

theorem decode_of_opmap_st {w : Word} (h : config.opmap (opcode w) = .st) :
    decode w = .st (destReg w) (lowField w 9) := by
  rw [decode, h]

theorem decode_of_opmap_sti {w : Word} (h : config.opmap (opcode w) = .sti) :
    decode w = .sti (destReg w) (lowField w 9) := by
  rw [decode, h]

theorem decode_of_opmap_str {w : Word} (h : config.opmap (opcode w) = .str) :
    decode w = .str (destReg w) (srcReg1 w) (lowField w 6) := by
  rw [decode, h]

end Sys2Proof

namespace Sys2Proof.Machine

/-! ### The instructions that store a register -/

theorem onlyWord_write (ea v : Word) (s : State) : OnlyWord ea s { s with mem := s.mem.write ea.toNat v } :=
  ⟨fun _ => rfl, rfl, rfl, fun a ha => by rw [word_write, if_neg ha], ⟨rfl, rfl, rfl, rfl⟩, ⟨rfl, rfl⟩, rfl⟩

/-- ST, STI and STR complete from every state, store their register at their address, and change nothing else. -/
theorem exec_stores_register {i : Instr} {s : State} {ea : Word} {r : Reg} (h : storeTarget s i = some (ea, r)) :
    ∃ t, exec i s = .next t ∧ t.word ea = s.reg r ∧ OnlyWord ea s t :=
  ⟨_, exec_of_storeTarget h, by rw [word_write, if_pos rfl], onlyWord_write ea (s.reg r) s⟩

/-! ### Accesses to a store of any size -/

section

variable {cfg : Config} {addr : Word}

theorem abortedAt_abort (addr : Word) (s : State) : AbortedAt addr (abort addr s) := ⟨rfl, rfl⟩

theorem memRead_of_outOfBounds (h : cfg.memWords ≤ addr.toNat) (m : Memory) : memRead cfg m addr = none :=
  if_neg (Nat.not_lt.mpr h)

theorem memWrite_of_outOfBounds (h : cfg.memWords ≤ addr.toNat) (m : Memory) (v : Word) :
    memWrite cfg m addr v = none :=
  if_neg (Nat.not_lt.mpr h)

theorem readThen_of_inBounds (h : addr.toNat < cfg.memWords) (s : State) (k : Word → Result) :
    readThen cfg addr s k = k (s.word addr) := by
  rw [readThen, memRead, if_pos h, State.word]

theorem readThen_aborts (h : cfg.memWords ≤ addr.toNat) (s : State) (k : Word → Result) :
    ∃ t, readThen cfg addr s k = .next t ∧ AbortedAt addr t :=
  ⟨abort addr s, by rw [readThen, memRead_of_outOfBounds h], abortedAt_abort addr s⟩

theorem loadResult_aborts (h : cfg.memWords ≤ addr.toNat) (d : Reg) (s : State) :
    ∃ t, loadResult cfg d addr s = .next t ∧ AbortedAt addr t :=
  readThen_aborts h s _

theorem store_aborts (h : cfg.memWords ≤ addr.toNat) (v : Word) (s : State) :
    ∃ t, store cfg addr v s = .next t ∧ AbortedAt addr t :=
  ⟨abort addr s, by rw [store, memWrite_of_outOfBounds h], abortedAt_abort addr s⟩

/-- An indirect access aborts at the pointer where that is out of bounds, and else at the address it holds where that is
(42_data_movement.md R97, R101). -/
theorem readThen_aborts_indirect {s : State} {k : Word → Result}
    (hk : ∀ a : Word, cfg.memWords ≤ a.toNat → ∃ t, k a = .next t ∧ AbortedAt a t) :
    (cfg.memWords ≤ addr.toNat → ∃ t, readThen cfg addr s k = .next t ∧ AbortedAt addr t) ∧
    (addr.toNat < cfg.memWords → cfg.memWords ≤ (s.word addr).toNat →
      ∃ t, readThen cfg addr s k = .next t ∧ AbortedAt (s.word addr) t) := by
  refine ⟨fun hout => readThen_aborts hout s k, fun hin hout => ?_⟩
  rw [readThen_of_inBounds hin]
  exact hk _ hout

end

end Sys2Proof.Machine
end

section
/-! PROOF. The statements on data movement (42_data_movement.md). -/

namespace Sys2Proof.Proofs

open Sys2Proof.Machine

/-- Settles O32: LD writes the result of R18 that is the word at its address, and a smaller store aborts the one read. -/
theorem ldLoadsPcRelative : Obligations.LdLoadsPcRelative :=
  ⟨fun _ h => decode_of_opmap_ld (opmap_of_mask h), fun d o => exec_writes_resultOf (i := .ld d o) rfl,
    fun _ d _ s h => loadResult_aborts h d s⟩

/-- Settles O33: the pointer is read before the word it points to, so that it is the first of the two that can abort. -/
theorem ldiLoadsIndirect : Obligations.LdiLoadsIndirect :=
  ⟨fun _ h => decode_of_opmap_ldi (opmap_of_mask h), fun d o => exec_writes_resultOf (i := .ldi d o) rfl,
    fun _ d _ s => readThen_aborts_indirect fun _ h => loadResult_aborts h d s⟩

/-- Settles O34: the address is taken from the base in the state before the write, so that `DR = SR1` needs no case. -/
theorem ldrLoadsBasePlusOffset : Obligations.LdrLoadsBasePlusOffset :=
  ⟨fun _ h => decode_of_opmap_ldr (opmap_of_mask h), fun d b o => exec_writes_resultOf (i := .ldr d b o) rfl,
    fun _ d _ _ s h => loadResult_aborts h d s⟩

/-- Settles O35: LEA writes the address itself as its result; neither that nor the flags it gives are taken from memory. -/
theorem leaGivesTheAddress : Obligations.LeaGivesTheAddress :=
  ⟨fun _ h => decode_of_opmap_lea (opmap_of_mask h), fun d o => exec_writes_resultOf (i := .lea d o) rfl,
    fun _ _ _ _ => rfl⟩

/-- Settles O36: ST stores its register at its `storeTarget`, and a smaller store aborts the one write. -/
theorem stStoresPcRelative : Obligations.StStoresPcRelative :=
  ⟨fun _ h => decode_of_opmap_st (opmap_of_mask h), fun r o _ => exec_stores_register (i := .st r o) rfl,
    fun _ r _ s h => store_aborts h (s.reg r) s⟩

/-- Settles O37: the `storeTarget` of STI is the pointer word of the old memory, and the read of the pointer is the first of
the two accesses that can abort. -/
theorem stiStoresIndirect : Obligations.StiStoresIndirect :=
  ⟨fun _ h => decode_of_opmap_sti (opmap_of_mask h), fun r o _ => exec_stores_register (i := .sti r o) rfl,
    fun _ r _ s => readThen_aborts_indirect fun _ h => store_aborts h (s.reg r) s⟩

/-- Settles O38: STR stores its register at its `storeTarget`, and a smaller store aborts the one write. -/
theorem strStoresBasePlusOffset : Obligations.StrStoresBasePlusOffset :=
  ⟨fun _ h => decode_of_opmap_str (opmap_of_mask h), fun r b o _ => exec_stores_register (i := .str r b o) rfl,
    fun _ r _ _ s h => store_aborts h (s.reg r) s⟩

end Sys2Proof.Proofs
end

section
/-! SUPPORT. The words of BR, JMP and JSR (30_encoding.md R54, R57), the test of BR (10_state.md R15), and what a jump and a
call leave unchanged (43_control.md R111 to R115). -/

namespace Sys2Proof

/-! ### The words of BR, JMP and JSR -/

theorem decode_of_opmap_br {w : Word} (h : config.opmap (opcode w) = .br) : decode w = .br (condField w) (lowField w 9) := by
  rw [decode, h]

theorem decode_of_opmap_jmp {w : Word} (h : config.opmap (opcode w) = .jmp) : decode w = .jmp (srcReg1 w) := by
  rw [decode, h]

theorem opcode_of_callMask {w v : Word} (h : w &&& 0xF800 = v) : opcode w = opcode v :=
  extract_of_mask 12 4 h (by decide)

theorem longImmFlag_of_callMask {w v : Word} (h : w &&& 0xF800 = v) : longImmFlag w = longImmFlag v :=
  getLsbD_of_mask 11 h rfl

theorem decode_jsr_of_callMask {w v : Word} (h : w &&& 0xF800 = v) (hjsr : config.opmap (opcode v) = .jsr) :
    decode w = if longImmFlag v then .jsr (lowField w 11) else .jsrr (srcReg1 w) := by
  rw [decode, opcode_of_callMask h, hjsr, longImmFlag_of_callMask h]

end Sys2Proof

namespace Sys2Proof.Machine

/-! ### The test of BR -/

theorem condTaken_eq_true_iff {cc cond : BitVec 3} : condTaken cc cond = true ↔ cc &&& cond ≠ 0 := bne_iff_ne

theorem condTaken_eq_false_iff {cc cond : BitVec 3} : condTaken cc cond = false ↔ cc &&& cond = 0 := bne_eq_false_iff_eq

/-! ### The frames of a jump and of a call -/

theorem onlyPc_withPc (p : Word) (s : State) : OnlyPc s { s with pc := p } :=
  ⟨fun _ => rfl, rfl, fun _ => rfl, ⟨rfl, rfl, rfl, rfl⟩, ⟨rfl, rfl⟩, rfl⟩

/-- The register that holds the return address after a call, wherever the call goes. -/
theorem reg_seven_of_call (p : Word) (s : State) : ({ saveReturn s with pc := p } : State).reg 7 = s.pc :=
  (saveReturn_reg ..).trans (if_pos rfl)

theorem onlyPcAndLink_call (p : Word) (s : State) : OnlyPcAndLink s { saveReturn s with pc := p } :=
  ⟨fun _ hr => (saveReturn_reg ..).trans (if_neg hr), rfl, fun _ => rfl, ⟨rfl, rfl, rfl, rfl⟩, ⟨rfl, rfl⟩, rfl⟩

end Sys2Proof.Machine
end

section
/-! PROOF. The statements on control transfer (43_control.md). -/

namespace Sys2Proof.Proofs

open Sys2Proof.Machine

/-- Settles O39: the two cases of the test of BR; the state of a branch not taken is the one it started from. -/
theorem brTestsTheFlags : Obligations.BrTestsTheFlags := by
  refine ⟨fun _ h => decode_of_opmap_br (opmap_of_mask h), fun c o s => ?_⟩
  by_cases hnone : s.cc &&& c = 0b000
  case pos =>
    exact ⟨s, exec_br_of_not_taken (condTaken_eq_false_iff.mpr hnone), onlyPc_withPc s.pc s,
      fun hsome => absurd hnone hsome, fun _ => rfl⟩
  case neg =>
    exact ⟨_, exec_br_of_taken (condTaken_eq_true_iff.mpr hnone), onlyPc_withPc (pcRelative s o) s,
      fun _ => rfl, fun hzero => absurd hzero hnone⟩

/-- Settles O40: the opcode field alone decides the class, and a jump writes no register, register 7 included. -/
theorem jmpGoesToTheBase : Obligations.JmpGoesToTheBase :=
  ⟨fun _ h => decode_of_opmap_jmp (opmap_of_mask h), fun b s => ⟨_, rfl, rfl, onlyPc_withPc (s.reg b) s⟩⟩

/-- Settles O41: bit 11 selects the long form, and the target is a sum on the same incremented `pc` that is saved. -/
theorem jsrSavesTheReturnAddress : Obligations.JsrSavesTheReturnAddress :=
  ⟨fun _ h => decode_jsr_of_callMask h rfl, fun o s =>
    ⟨_, rfl, reg_seven_of_call (pcRelativeLong s o) s, rfl, onlyPcAndLink_call (pcRelativeLong s o) s⟩⟩

end Sys2Proof.Proofs
end

section
/-! SUPPORT. The words of the trap services (30_encoding.md R57, 44_trap.md R120, R121), the vectors that select no service
(44_trap.md R133), and what a write to the output sink leaves unchanged (44_trap.md R123). -/

namespace Sys2Proof

/-! ### The words of the trap services: the opcode and the seven bits of the vector decide them -/

theorem opcode_of_trapMask {w v : Word} (h : w &&& 0xF07F = v) : opcode w = opcode v :=
  extract_of_mask 12 4 h (by decide)

theorem trapVector_of_trapMask {w v : Word} (h : w &&& 0xF07F = v) : trapVector w = trapVector v :=
  congrArg sext16 (extract_of_mask 0 7 h (by decide))

theorem decode_of_opmap_trap {w : Word} (h : config.opmap (opcode w) = .trap) : decode w = decodeTrap (trapVector w) := by
  rw [decode, h]

theorem decodeTrap_trapvec (svc : Service) : decodeTrap (config.trapvec svc) = Machine.serviceInstr svc := by
  rw [decodeTrap, serviceOf_trapvec]
  cases svc <;> rfl

/-- A word that agrees with a service's under the mask of the trap rows is that service's. -/
theorem decode_service_of_trapMask {w v : Word} {svc : Service} (h : w &&& 0xF07F = v)
    (htrap : config.opmap (opcode v) = .trap) (hvector : trapVector v = config.trapvec svc) :
    decode w = Machine.serviceInstr svc := by
  have hclass : config.opmap (opcode w) = .trap := by rw [opcode_of_trapMask h, htrap]
  rw [decode_of_opmap_trap hclass, trapVector_of_trapMask h, hvector, decodeTrap_trapvec]

/-! ### The vectors of no service -/

theorem serviceOf_eq_none {v : Word} (h : ∀ svc, config.trapvec svc ≠ v) : serviceOf config v = none :=
  Option.eq_none_iff_forall_ne_some.mpr fun svc hsvc => h svc (trapvec_of_serviceOf hsvc)

end Sys2Proof

namespace Sys2Proof.Machine

theorem exec_trap_of_no_service {v : Word} (h : ∀ svc, config.trapvec svc ≠ v) (s : State) :
    exec (.trap v) s = .next (raise (.unimplementedTrapVector v) s) := by
  rw [exec_trap, serviceOf_eq_none h]

/-! ### The frame of a write to the output sink -/

theorem onlyOutput_emit (ev : List OutEvent) (s : State) : OnlyOutput s (emit ev s) :=
  ⟨fun _ => rfl, rfl, rfl, fun _ => rfl, ⟨rfl, rfl, rfl, rfl⟩, ⟨rfl, rfl⟩⟩

end Sys2Proof.Machine
end

section
/-! PROOF. The statements on the trap subsystem (44_trap.md). -/

namespace Sys2Proof.Proofs

open Sys2Proof.Machine

/-- Settles O46: the table of TRAPVEC read backwards answers no service, so that the class row raises with the vector. -/
theorem unknownVectorHalts : Obligations.UnknownVectorHalts := fun v s h =>
  ⟨_, exec_trap_of_no_service h s, haltedWith_raise (.unimplementedTrapVector v) s⟩

/-- Settles O48: the one write of OUT is the low byte of register 0. -/
theorem outWritesTheLowByte : Obligations.OutWritesTheLowByte :=
  ⟨fun _ h => decode_service_of_trapMask (svc := .out) h rfl rfl,
    fun s => ⟨emit [.char (lowByte (s.reg 0))] s, rfl, emit_output s _, onlyOutput_emit _ s⟩⟩

/-- Settles O54: the one write of OUTU16 is register 0 as a number. -/
theorem outu16WritesANumber : Obligations.Outu16WritesANumber :=
  ⟨fun _ h => decode_service_of_trapMask (svc := .outu16) h rfl rfl,
    fun s => ⟨emit [.dec (s.reg 0)] s, rfl, emit_output s _, onlyOutput_emit _ s⟩⟩

end Sys2Proof.Proofs
end

section
/-! SUPPORT. The one way an instruction leaves Running with the decided store (60_exceptions.md R141 to R144): every
instruction keeps `run`, or is `raise` of a halting reason on the state after the fetch. -/

namespace Sys2Proof.Machine

/-- The reasons of a Halted machine: the clean halt (44_trap.md R130) and the three conditions of R142 to R144. -/
def HaltingReason (e : Reason) : Prop :=
  e = .haltTrap ∨ (∃ op, e = .unimplementedInstruction op) ∨ (∃ v, e = .unimplementedTrapVector v) ∨ e = .inputExhausted

/-- The outcome `x` from `s` is a next state that has kept `run`, or `s` with a halting reason raised. -/
def KeepsRunOrRaises (s : State) (x : Result) : Prop :=
  ∃ t, x = .next t ∧ (t.run = s.run ∨ ∃ e, HaltingReason e ∧ t = raise e s)

theorem keepsRunOrRaises_raise {e : Reason} (he : HaltingReason e) (s : State) :
    KeepsRunOrRaises s (.next (raise e s)) :=
  ⟨_, rfl, .inr ⟨e, he, rfl⟩⟩

theorem performService_keepsRunOrRaises (svc : Service) (s : State) :
    KeepsRunOrRaises s (performService config svc s) := by
  obtain ⟨t, hsvc, -, -, -, -, -, ⟨hrun, -⟩ | ⟨hraise, -⟩ | ⟨hraise, -⟩⟩ := performService_cases svc s
  · exact ⟨t, hsvc, .inl hrun⟩
  · exact ⟨t, hsvc, .inr ⟨.haltTrap, .inl rfl, hraise⟩⟩
  · exact ⟨t, hsvc, .inr ⟨.inputExhausted, .inr (.inr (.inr rfl)), hraise⟩⟩

theorem exec_keepsRunOrRaises_of_not_requestsHalt {i : Instr} {s : State} (hwf : i.wellFormed = true)
    (hreq : requestsHalt s i = false) : KeepsRunOrRaises s (exec i s) := by
  obtain ⟨t, hexec, hrun⟩ := exec_run hwf s
  rw [hreq, if_neg Bool.false_ne_true] at hrun
  exact ⟨t, hexec, .inl hrun⟩

/-- Only RTI, RES, TRAP and the services that can halt need a look: the other forms never request Halted (R75). -/
theorem exec_keepsRunOrRaises (i : Instr) (s : State) : KeepsRunOrRaises s (exec i s) := by
  cases i with
  | rti | res => exact keepsRunOrRaises_raise (.inr (.inl ⟨_, rfl⟩)) s
  | trap v =>
    rw [exec_trap]
    cases serviceOf config v with
    | some svc => exact performService_keepsRunOrRaises svc s
    | none => exact keepsRunOrRaises_raise (.inr (.inr (.inl ⟨v, rfl⟩))) s
  | trapHalt => exact performService_keepsRunOrRaises .halt s
  | trapGetc => exact performService_keepsRunOrRaises .getc s
  | trapIn => exact performService_keepsRunOrRaises .inChar s
  | trapInu16 => exact performService_keepsRunOrRaises .inu16 s
  | _ => exact exec_keepsRunOrRaises_of_not_requestsHalt rfl rfl

/-- A running machine is Halted by an instruction only through `raise` (R141). -/
theorem eq_raise_of_exec_halted {i : Instr} {s t : State} (hrunning : s.run = .running) (hexec : exec i s = .next t)
    (hhalted : t.run = .halted) : ∃ e, HaltingReason e ∧ t = raise e s := by
  obtain ⟨u, hu, hkeeps | hraise⟩ := exec_keepsRunOrRaises i s <;> cases hexec.symm.trans hu
  · simp [hkeeps, hrunning] at hhalted
  · exact hraise

end Sys2Proof.Machine
end

section
/-! PROOF. The statement on leaving Running (60_exceptions.md R141). -/

namespace Sys2Proof.Proofs

open Sys2Proof.Machine

/-- Settles O16: the halted state is `raise` of a halting reason, which sets `run` and `reason` alone. -/
theorem haltChangesNothingElse : Obligations.HaltChangesNothingElse := by
  intro i s t hrunning hexec hhalted
  obtain ⟨e, he, rfl⟩ := eq_raise_of_exec_halted hrunning hexec hhalted
  exact ⟨rfl, he⟩

end Sys2Proof.Proofs
end

section
/-! SUPPORT. Decoding an encoded instruction (30_encoding.md R51 to R60): the class of a word, and the fields that a word built of
placed fields gives back. -/

namespace Sys2Proof

/-! ### The class of a word -/

theorem decode_of_opmap_add {w : Word} (h : config.opmap (opcode w) = .add) :
    decode w = if immModeFlag w then .addImm (destReg w) (srcReg1 w) (lowField w 5)
      else .addReg (destReg w) (srcReg1 w) (srcReg2 w) := by
  rw [decode, h]

theorem decode_of_opmap_and {w : Word} (h : config.opmap (opcode w) = .and) :
    decode w = if immModeFlag w then .andImm (destReg w) (srcReg1 w) (lowField w 5)
      else .andReg (destReg w) (srcReg1 w) (srcReg2 w) := by
  rw [decode, h]

theorem decode_of_opmap_jsr {w : Word} (h : config.opmap (opcode w) = .jsr) :
    decode w = if longImmFlag w then .jsr (lowField w 11) else .jsrr (srcReg1 w) := by
  rw [decode, h]

/-- A TRAP word is the row of the service its vector names, or the class row with its vector (44_trap.md R124, R133). -/
theorem decodeTrap_cases (v : Word) :
    (∃ svc, config.trapvec svc = v ∧ decodeTrap v = Machine.serviceInstr svc) ∨
    (serviceOf config v = none ∧ decodeTrap v = .trap v) := by
  cases h : serviceOf config v with
  | some svc =>
    obtain rfl := trapvec_of_serviceOf h
    exact .inl ⟨svc, rfl, decodeTrap_trapvec svc⟩
  | none => exact .inr ⟨rfl, by rw [decodeTrap, h]⟩

theorem opClass_serviceInstr (svc : Service) : (Machine.serviceInstr svc).opClass = .trap := by
  cases svc <;> rfl

theorem opClass_decodeTrap (v : Word) : (decodeTrap v).opClass = .trap := by
  rcases decodeTrap_cases v with ⟨svc, -, h⟩ | ⟨-, h⟩
  · rw [h, opClass_serviceInstr]
  · rw [h, Instr.opClass]

/-- The class of a decoded instruction is the one OPMAP gives its opcode (R52). -/
theorem opClass_decode (w : Word) : (decode w).opClass = config.opmap (opcode w) := by
  cases h : config.opmap (opcode w) with
  | add => rw [decode_of_opmap_add h]; split <;> rfl
  | and => rw [decode_of_opmap_and h]; split <;> rfl
  | jsr => rw [decode_of_opmap_jsr h]; split <;> rfl
  | trap => rw [decode_of_opmap_trap h, opClass_decodeTrap]
  | _ => rw [decode, h]; rfl

theorem opcode_encode : ∀ i : Instr, opcode (encode i) = config.opcodeOf i.opClass
  | .br c o => Laws.EncodeOpcode.br c o
  | .addReg d a b => Laws.EncodeOpcode.addReg d a b
  | .addImm d a i => Laws.EncodeOpcode.addImm d a i
  | .ld d o => Laws.EncodeOpcode.ld d o
  | .st d o => Laws.EncodeOpcode.st d o
  | .jsr o => Laws.EncodeOpcode.jsr o
  | .jsrr b => Laws.EncodeOpcode.jsrr b
  | .andReg d a b => Laws.EncodeOpcode.andReg d a b
  | .andImm d a i => Laws.EncodeOpcode.andImm d a i
  | .ldr d b o => Laws.EncodeOpcode.ldr d b o
  | .str d b o => Laws.EncodeOpcode.str d b o
  | .rti => Laws.EncodeOpcode.rti
  | .not d a => Laws.EncodeOpcode.not d a
  | .ldi d o => Laws.EncodeOpcode.ldi d o
  | .sti d o => Laws.EncodeOpcode.sti d o
  | .jmp b => Laws.EncodeOpcode.jmp b
  | .res => Laws.EncodeOpcode.res
  | .lea d o => Laws.EncodeOpcode.lea d o
  | .trap v => Laws.EncodeOpcode.trap v
  | .trapGetc | .trapOut | .trapPuts | .trapIn | .trapPutsp | .trapHalt | .trapInu16 | .trapOutu16 => opcode_encodeTrap _

/-- The class of an encoded instruction is read back from its word. -/
theorem opmap_opcode_encode (i : Instr) : config.opmap (opcode (encode i)) = i.opClass := by
  rw [opcode_encode, opmap_opcodeOf]

/-! ### Fields read back from a word built of placed fields -/

theorem lowField_or (x y : Word) (n : Nat) : lowField (x ||| y) n = lowField x n ||| lowField y n := extract_or x y 0 n

theorem lowField_place {n : Nat} (v : BitVec n) (h : n ≤ 16) : lowField (place v 0) n = v :=
  extract_place_same v 0 (by omega)

theorem lowField_place_above {m : Nat} (v : BitVec m) {n lo : Nat} (h : n ≤ lo) : lowField (place v lo) n = 0#n :=
  extract_place_other v 0 lo (.inl (by omega))

/-- The bit that selects the form of ADD and AND, as a field of width 1. -/
theorem immModeFlag_eq_field (w : Word) : immModeFlag w = (w.extractLsb' 5 1).getLsbD 0 := by
  rw [BitVec.getLsbD_extractLsb']; rfl

/-- The bit that selects the form of JSR, as a field of width 1. -/
theorem longImmFlag_eq_field (w : Word) : longImmFlag w = (w.extractLsb' 11 1).getLsbD 0 := by
  rw [BitVec.getLsbD_extractLsb']; rfl

theorem trapVector_encodeTrap (v : Word) : trapVector (encodeTrap v) = signExtend v 7 := by
  rw [trapVector, encodeTrap, unsignedImm_eq_place, signExtend, lowField_or, opcodeField, trapvecWidth_config,
    lowField_place_above _ (by decide), lowField_place _ (by decide), BitVec.zero_or, signExtend]

theorem signExtend_trapvec (svc : Service) : signExtend (config.trapvec svc) 7 = config.trapvec svc := by
  cases svc <;> decide

theorem encode_serviceInstr (svc : Service) : encode (Machine.serviceInstr svc) = encodeTrap (config.trapvec svc) := by
  cases svc <;> rfl

theorem decode_encodeTrap (v : Word) : decode (encodeTrap v) = decodeTrap (signExtend v 7) := by
  have hclass : config.opmap (opcode (encodeTrap v)) = .trap := opmap_opcode_encode (.trap v)
  rw [decode_of_opmap_trap hclass, trapVector_encodeTrap]

theorem decode_encode_serviceInstr (svc : Service) :
    decode (encode (Machine.serviceInstr svc)) = Machine.serviceInstr svc := by
  rw [encode_serviceInstr, decode_encodeTrap, signExtend_trapvec, decodeTrap_trapvec]

theorem signExtend_of_vectorInRange {v : Word} (h : vectorInRange v = true) : signExtend v 7 = v :=
  beq_iff_eq.mp h

/-- The encoder loses no operand: each field is read back whole at its own place, and no other field reaches it. -/
theorem decode_encode {i : Instr} (hwf : i.wellFormed = true) : decode (encode i) = i := by
  have hclass := opmap_opcode_encode i
  cases i with
  | br | ld | st | ldr | str | not | ldi | sti | jmp | lea =>
    rw [decode, hclass]
    simp [Instr.opClass, encode, opcodeField, condField, destReg, srcReg1, lowField, extract_or, extract_place_same,
      extract_place_other, toFin_regField]
  | addReg | andReg | addImm | andImm | jsr | jsrr =>
    rw [decode, hclass]
    simp [Instr.opClass, encode, opcodeField, destReg, srcReg1, srcReg2, lowField, immModeFlag_eq_field,
      longImmFlag_eq_field, extract_or, extract_place_same, extract_place_other, toFin_regField]
  | rti => exact decode_of_opmap_rti hclass
  | res => exact decode_of_opmap_res hclass
  | trap v =>
    have hrange : vectorInRange v = true := (Bool.and_eq_true_iff.mp hwf).1
    rw [encode, decode_encodeTrap, signExtend_of_vectorInRange hrange, decodeTrap, serviceOf_of_wellFormed_trap hwf]
  | trapGetc => exact decode_encode_serviceInstr .getc
  | trapOut => exact decode_encode_serviceInstr .out
  | trapPuts => exact decode_encode_serviceInstr .puts
  | trapIn => exact decode_encode_serviceInstr .inChar
  | trapPutsp => exact decode_encode_serviceInstr .putsp
  | trapHalt => exact decode_encode_serviceInstr .halt
  | trapInu16 => exact decode_encode_serviceInstr .inu16
  | trapOutu16 => exact decode_encode_serviceInstr .outu16

end Sys2Proof
end

section
/-! SUPPORT. A word as the sum of its fields (30_encoding.md R57): the canonical word of a decoded instruction keeps the bits
its form reads and clears the others (R59). -/

namespace Sys2Proof

/-- The bits of the field of width `n` whose lowest bit is `lo`. -/
def fieldMask (lo n : Nat) : Word := place (BitVec.allOnes n) lo

/-- A field put back at its own place is the word cut down to that field. -/
theorem place_extract (w : Word) (lo n : Nat) : place (w.extractLsb' lo n) lo = w &&& fieldMask lo n := by
  apply BitVec.eq_of_getLsbD_eq
  intro i hi
  rw [BitVec.getLsbD_and, fieldMask, getLsbD_place, getLsbD_place, BitVec.getLsbD_extractLsb', BitVec.getLsbD_allOnes]
  by_cases hlo : lo ≤ i
  · simp [hi, hlo, Nat.add_sub_cancel' hlo, Bool.and_comm]
  · simp [hlo]

theorem place_destReg (w : Word) : place (regField (destReg w)) 9 = w &&& fieldMask 9 3 := place_extract w 9 3

theorem place_srcReg1 (w : Word) : place (regField (srcReg1 w)) 6 = w &&& fieldMask 6 3 := place_extract w 6 3

theorem place_srcReg2 (w : Word) : place (regField (srcReg2 w)) 0 = w &&& fieldMask 0 3 := place_extract w 0 3

theorem place_condField (w : Word) : place (condField w) 9 = w &&& fieldMask 9 3 := place_extract w 9 3

theorem place_lowField (w : Word) (n : Nat) : place (lowField w n) 0 = w &&& fieldMask 0 n := place_extract w 0 n

theorem opcodeField_of_opmap {w : Word} {c : OpClass} (h : config.opmap (opcode w) = c) :
    opcodeField c = w &&& fieldMask 12 4 := by
  rw [opcodeField, ← h, opcodeOf_opmap]
  exact place_extract w 12 4

theorem extract_one (w : Word) (i : Nat) : w.extractLsb' i 1 = BitVec.ofBool (w.getLsbD i) := by
  apply BitVec.eq_of_getLsbD_eq
  intro j hj
  obtain rfl := Nat.lt_one_iff.mp hj
  simp

/-- A bit that is set, put back at its own place. -/
theorem place_one_of_set {w : Word} {i : Nat} (h : w.getLsbD i = true) : place 1#1 i = w &&& fieldMask i 1 := by
  rw [← place_extract, extract_one, h]
  rfl

/-- A bit that is clear may be read or not. -/
theorem and_or_fieldMask_of_clear {w : Word} {i : Nat} (h : w.getLsbD i = false) (m : Word) :
    w &&& (m ||| fieldMask i 1) = w &&& m := by
  have hzero : w &&& fieldMask i 1 = 0#16 := by
    rw [← place_extract, extract_one, h]
    exact BitVec.zero_shiftLeft i
  rw [BitVec.and_or_distrib_left, hzero, BitVec.or_zero]

/-! ### The canonical word of a decoded instruction -/

theorem encode_decodeTrap (v : Word) : encode (decodeTrap v) = encodeTrap v := by
  rcases decodeTrap_cases v with ⟨svc, rfl, h⟩ | ⟨-, h⟩
  · rw [h, encode_serviceInstr]
  · rw [h, encode]

theorem readBits_of_opClass_trap {i : Instr} (h : i.opClass = .trap) : readBits i = 0xF07F := by
  cases i <;> cases h <;> rfl

theorem encodeTrap_trapVector {w : Word} (h : config.opmap (opcode w) = .trap) :
    encodeTrap (trapVector w) = w &&& 0xF07F := by
  have hlow : unsignedImm (trapVector w) 7 = w &&& fieldMask 0 7 := by
    rw [trapVector, trapvecWidth_config, unsignedImm_signExtend w (by decide), unsignedImm_eq_place, place_lowField]
  rw [encodeTrap, trapvecWidth_config, hlow, opcodeField_of_opmap h, ← BitVec.and_or_distrib_left]
  rfl

/-- Put back together, the fields a form reads are the word in all the bits it reads. -/
theorem encode_decode (w : Word) : encode (decode w) = w &&& readBits (decode w) := by
  cases h : config.opmap (opcode w) with
  | trap =>
    rw [readBits_of_opClass_trap ((opClass_decode w).trans h), decode_of_opmap_trap h, encode_decodeTrap,
      encodeTrap_trapVector h]
  | add | and =>
    cases himm : immModeFlag w with
    | true =>
      simp only [decode, h, himm, if_true, encode, opcodeField_of_opmap h, place_destReg, place_srcReg1, place_lowField,
        place_one_of_set himm, ← BitVec.and_or_distrib_left]
      rfl
    | false =>
      simp only [decode, h, himm, Bool.false_eq_true, if_false, encode, opcodeField_of_opmap h, place_destReg,
        place_srcReg1, place_srcReg2, ← BitVec.and_or_distrib_left]
      exact (and_or_fieldMask_of_clear himm _).symm
  | jsr =>
    cases hlong : longImmFlag w with
    | true =>
      simp only [decode, h, hlong, if_true, encode, opcodeField_of_opmap h, place_lowField, place_one_of_set hlong,
        ← BitVec.and_or_distrib_left]
      rfl
    | false =>
      simp only [decode, h, hlong, Bool.false_eq_true, if_false, encode, opcodeField_of_opmap h, place_srcReg1,
        ← BitVec.and_or_distrib_left]
      exact (and_or_fieldMask_of_clear hlong _).symm
  | br | ld | st | ldr | str | rti | not | ldi | sti | jmp | res | lea =>
    simp only [decode, h, encode, opcodeField_of_opmap h, place_condField, place_destReg, place_srcReg1, place_lowField,
      ← BitVec.and_or_distrib_left]
    rfl

/-! ### Well-formedness (30_encoding.md R59) -/

theorem signExtend_signExtend (w : Word) : signExtend (signExtend w 7) 7 = signExtend w 7 :=
  signExtend_congr (by decide) (unsignedImm_signExtend w (by decide))

theorem wellFormed_serviceInstr (svc : Service) : (Machine.serviceInstr svc).wellFormed = true := by
  cases svc <;> rfl

theorem wellFormed_of_opClass {i : Instr} (h : i.opClass ≠ .trap) : i.wellFormed = true := by
  cases i with
  | trap => exact absurd rfl h
  | _ => rfl

theorem wellFormed_decode (w : Word) : (decode w).wellFormed = true := by
  by_cases hclass : config.opmap (opcode w) = .trap
  · rw [decode_of_opmap_trap hclass]
    rcases decodeTrap_cases (trapVector w) with ⟨svc, -, h⟩ | ⟨hnone, h⟩
    · rw [h, wellFormed_serviceInstr]
    · have hrange : vectorInRange (trapVector w) = true := beq_iff_eq.mpr (signExtend_signExtend w)
      rw [h, Instr.wellFormed, hrange, hnone]
      rfl
  · exact wellFormed_of_opClass ((opClass_decode w).trans_ne hclass)

/-! ### Words that agree in the bits a form reads (R59) -/

theorem opcode_of_readBits {w w' : Word} (i : Instr) (h : w' &&& readBits i = w &&& readBits i) :
    opcode w' = opcode w := by
  have hread : ∀ k < 4, (readBits i).getLsbD (12 + k) = true := by
    cases i <;> rw [readBits] <;> decide
  exact (extract_of_mask 12 4 h hread).trans (extract_of_mask 12 4 rfl hread).symm

theorem getLsbD_of_readBits {w w' : Word} {i : Instr} {k : Nat} (h : w' &&& readBits i = w &&& readBits i)
    (hk : (readBits i).getLsbD k = true) : w'.getLsbD k = w.getLsbD k :=
  (getLsbD_of_mask k h hk).trans (getLsbD_of_mask k rfl hk).symm

/-- ADD and AND read the bit that selects their form. -/
theorem getLsbD_five_readBits {i : Instr} (h : i.opClass = .add ∨ i.opClass = .and) : (readBits i).getLsbD 5 = true := by
  cases i with
  | addReg | addImm | andReg | andImm => rw [readBits]; decide
  | _ => simp [Instr.opClass] at h

/-- JSR reads the bit that selects its form. -/
theorem getLsbD_eleven_readBits {i : Instr} (h : i.opClass = .jsr) : (readBits i).getLsbD 11 = true := by
  cases i with
  | jsr | jsrr => rw [readBits]; decide
  | _ => cases h

/-- Words that agree in the bits a form reads are of the same form. -/
theorem readBits_decode_congr {w w' : Word} (h : w' &&& readBits (decode w) = w &&& readBits (decode w)) :
    readBits (decode w') = readBits (decode w) := by
  have hop : opcode w' = opcode w := opcode_of_readBits _ h
  have hform := opClass_decode w
  cases hclass : config.opmap (opcode w) with
  | trap =>
    rw [readBits_of_opClass_trap (hform.trans hclass),
      readBits_of_opClass_trap ((opClass_decode w').trans (hop ▸ hclass))]
  | add | and =>
    have himm : immModeFlag w' = immModeFlag w :=
      getLsbD_of_readBits h (getLsbD_five_readBits (by simp [hform, hclass]))
    simp only [decode, hop, hclass, himm]
    split <;> rfl
  | jsr =>
    have hlong : longImmFlag w' = longImmFlag w :=
      getLsbD_of_readBits h (getLsbD_eleven_readBits (hform.trans hclass))
    simp only [decode, hop, hclass, hlong]
    split <;> rfl
  | _ => simp only [decode, hop, hclass, readBits]

/-- So their canonical words are the same, and with them the instruction. -/
theorem decode_congr {w w' : Word} (h : w' &&& readBits (decode w) = w &&& readBits (decode w)) :
    decode w' = decode w := by
  have hword : encode (decode w') = encode (decode w) := by
    rw [encode_decode, encode_decode, readBits_decode_congr h, h]
  calc decode w' = decode (encode (decode w')) := (decode_encode (wellFormed_decode w')).symm
    _ = decode (encode (decode w)) := by rw [hword]
    _ = decode w := decode_encode (wellFormed_decode w)

end Sys2Proof
end

section
/-! SUPPORT. The fields of a word as arithmetic on its number (30_encoding.md R46 to R55), and the trap vector (44_trap.md
R120). -/

namespace Sys2Proof

theorem toNat_extract (w : Word) (lo n : Nat) : (w.extractLsb' lo n).toNat = w.toNat / 2 ^ lo % 2 ^ n := by
  rw [BitVec.extractLsb'_toNat, Nat.shiftRight_eq_div_pow]

theorem getLsbD_iff (w : Word) (i : Nat) : w.getLsbD i = true ↔ w.toNat / 2 ^ i % 2 = 1 := by
  rw [BitVec.getLsbD, Nat.testBit_eq_decide_div_mod_eq, decide_eq_true_iff]

/-- The opcode is the top field, so that no remainder is taken. -/
theorem toNat_opcode (w : Word) : (opcode w).toNat = w.toNat / 4096 := by
  have hlt : w.toNat / 4096 < 16 := by omega
  rw [opcode, toNat_extract]
  exact Nat.mod_eq_of_lt hlt

/-! ### The trap vector -/

theorem toNat_signExtend_of_clear {w : Word} (h : w.getLsbD 6 = false) : (signExtend w 7).toNat = w.toNat % 64 := by
  have hbit : ¬ w.toNat / 2 ^ 6 % 2 = 1 := by rw [← getLsbD_iff, h]; exact Bool.false_ne_true
  rw [signExtend_eq_unsignedImm w (by decide) h, toNat_unsignedImm w (by decide), lowField, toNat_extract]
  omega

theorem toNat_signExtend_of_set {w : Word} (h : w.getLsbD 6 = true) : 0xFFC0 ≤ (signExtend w 7).toNat := by
  have hbit := (getLsbD_iff w 6).mp h
  have hint := toInt_signExtend w (width := 7) (by decide) (by decide) h
  have hmod := toNat_eq_toInt_emod (signExtend w 7)
  rw [toNat_unsignedImm w (by decide), lowField, toNat_extract] at hint
  omega

/-- Every vector of a service is below 64. -/
theorem serviceOf_of_large {v : Word} (h : 0xFFC0 ≤ v.toNat) : serviceOf config v = none :=
  serviceOf_eq_none fun svc hsvc => by
    subst hsvc
    exact absurd h (by cases svc <;> decide)

end Sys2Proof
end

section
/-! PROOF. The statements on decoding and encoding (30_encoding.md, 44_trap.md R120). -/

namespace Sys2Proof.Proofs

open Sys2Proof.Machine

/-- Settles O2: each operand is read back whole from its own field. -/
theorem decodeOfEncode : Obligations.DecodeOfEncode := fun _ hwf => decode_encode hwf

/-- Settles O3: the fields a form reads, put back at their places, are the word in exactly those bits. -/
theorem encodeOfDecode : Obligations.EncodeOfDecode := fun w => ⟨wellFormed_decode w, encode_decode w⟩

/-- Settles O4: words that agree in the bits read have the same canonical word, and with it the same instruction. -/
theorem unreadBitsAreIgnored : Obligations.UnreadBitsAreIgnored := by
  refine ⟨fun _ _ => decode_congr, fun w s => ?_⟩
  obtain ⟨t, hexec, -⟩ := exec_keepsRunOrRaises (decode w) s
  exact ⟨t, hexec⟩

/-- Settles O1: each of the words is decoded field by field. -/
theorem wordsOfTheSpecDecode : Obligations.WordsOfTheSpecDecode := by
  unfold Obligations.WordsOfTheSpecDecode
  decide

/-- Settles O5: OPMAP and its inverse, and the sixteen rows. -/
theorem opcodeMapIsTheTable : Obligations.OpcodeMapIsTheTable :=
  ⟨opcodeOf_opmap, opmap_opcodeOf, by decide⟩

/-- Settles O7: a field is a quotient of the word's number modulo its size. -/
theorem decoderFieldPositions : Obligations.DecoderFieldPositions := fun op =>
  ⟨toNat_extract op 9 3, toNat_extract op 6 3, (toNat_extract op 0 3).trans (congrArg (· % 8) (Nat.div_one _)),
    toNat_opcode op, toNat_extract op 9 3, getLsbD_iff op 5, getLsbD_iff op 11⟩

/-- Settles O8: bits 11 to 7 are not read, and bit 6 decides between the two ranges. -/
theorem trapVectorExtraction : Obligations.TrapVectorExtraction := fun _ =>
  ⟨rfl, (trapVector_of_trapMask rfl).symm, toNat_signExtend_of_clear,
    fun hset => ⟨toNat_signExtend_of_set hset, serviceOf_of_large (toNat_signExtend_of_set hset)⟩⟩

end Sys2Proof.Proofs
end

section
/-! SUPPORT. All that an instruction, a service and a step can do to the whole state (40_execution_cycle.md R74, R75, R79): the
forms of outcome, and what each leaves of `pc`, of memory and of the control fields. -/

namespace Sys2Proof.Machine

/-! ### The forms of outcome of an instruction -/

/-- `Runs s i t`: the form in which the instruction `i` leads from `s` to `t`.  A jump or a call is one to some target. -/
inductive Runs (s : State) : Instr → State → Prop where
  | result {i : Instr} {d : Reg} (h : flagDest i = some d) : Runs s i (writeResult d (resultOf s i) s)
  | store {i : Instr} {ea : Word} {r : Reg} (h : storeTarget s i = some (ea, r)) :
      Runs s i { s with mem := s.mem.write ea.toNat (s.reg r) }
  | notTaken {cond : BitVec 3} {offset : BitVec 9} (h : condTaken s.cc cond = false) : Runs s (.br cond offset) s
  | jump {i : Instr} (p : Word) (h : writesPc s i = true) : Runs s i { s with pc := p }
  | call {i : Instr} (p : Word) (h : writesPc s i = true) : Runs s i { saveReturn s with pc := p }
  | unimplemented {i : Instr} (h : i = .rti ∨ i = .res) :
      Runs s i (raise (.unimplementedInstruction (config.opcodeOf i.opClass)) s)
  | unknownVector {v : Word} (h : serviceOf config v = none) : Runs s (.trap v) (raise (.unimplementedTrapVector v) s)
  | service {i : Instr} {t : State} (svc : Service) (h : performService config svc s = .next t) : Runs s i t

theorem performService_runs (i : Instr) (svc : Service) (s : State) :
    ∃ t, performService config svc s = .next t ∧ Runs s i t := by
  obtain ⟨t, hsvc, -⟩ := performService_cases svc s
  exact ⟨t, hsvc, .service svc hsvc⟩

theorem exec_runs (i : Instr) (s : State) : ∃ t, exec i s = .next t ∧ Runs s i t := by
  cases hd : flagDest i with
  | some d => exact ⟨_, exec_of_flagDest hd s, .result hd⟩
  | none =>
    match i with
    | .br cond offset =>
      cases ht : condTaken s.cc cond with
      | true => exact ⟨_, exec_br_of_taken ht, .jump _ ht⟩
      | false => exact ⟨_, exec_br_of_not_taken ht, .notTaken ht⟩
    | .jmp b => exact ⟨_, rfl, .jump (s.reg b) rfl⟩
    | .jsr offset => exact ⟨_, rfl, .call (pcRelativeLong s offset) rfl⟩
    | .jsrr b => exact ⟨_, rfl, .call ((saveReturn s).reg b) rfl⟩
    | .st sr offset => exact ⟨_, exec_of_storeTarget rfl, .store rfl⟩
    | .sti sr offset => exact ⟨_, exec_of_storeTarget rfl, .store rfl⟩
    | .str sr b offset => exact ⟨_, exec_of_storeTarget rfl, .store rfl⟩
    | .rti => exact ⟨_, rfl, .unimplemented (.inl rfl)⟩
    | .res => exact ⟨_, rfl, .unimplemented (.inr rfl)⟩
    | .trap v =>
      rw [exec_trap]
      cases hv : serviceOf config v with
      | some svc => exact performService_runs _ svc s
      | none => exact ⟨_, rfl, .unknownVector hv⟩
    | .trapGetc => exact performService_runs _ .getc s
    | .trapOut => exact performService_runs _ .out s
    | .trapPuts => exact performService_runs _ .puts s
    | .trapIn => exact performService_runs _ .inChar s
    | .trapPutsp => exact performService_runs _ .putsp s
    | .trapHalt => exact performService_runs _ .halt s
    | .trapInu16 => exact performService_runs _ .inu16 s
    | .trapOutu16 => exact performService_runs _ .outu16 s

theorem runs_of_exec {i : Instr} {s t : State} (h : exec i s = .next t) : Runs s i t := by
  obtain ⟨u, hu, hruns⟩ := exec_runs i s
  cases h.symm.trans hu
  exact hruns

/-! ### What a service leaves -/

/-- `t` has kept the run state, the reason and `Start` of `s`, and has kept its suspension or is suspended in a service that can
be; or it is `s` with a halting reason raised. -/
def KeepsControlOrRaises (s t : State) : Prop :=
  (t.run = s.run ∧ t.reason = s.reason ∧ t.started = s.started ∧
    (t.pending = s.pending ∨ ∃ svc, blocks svc = true ∧ t.pending = some svc)) ∨
  ∃ e, HaltingReason e ∧ t = raise e s

/-- A service leaves `pc`, the flags and memory (44_trap.md R124). -/
theorem performService_frame {svc : Service} {s t : State} (h : performService config svc s = .next t) :
    t.pc = s.pc ∧ t.cc = s.cc ∧ t.mem = s.mem := by
  obtain ⟨u, hu, hpc, hcc, hmem, -⟩ := performService_cases svc s
  cases h.symm.trans hu
  exact ⟨hpc, hcc, hmem⟩

theorem performService_mem {svc : Service} {s t : State} (h : performService config svc s = .next t) : t.mem = s.mem := by
  obtain ⟨-, -, hmem⟩ := performService_frame h
  exact hmem

theorem performService_reason {svc : Service} {s t : State} (h : performService config svc s = .next t) :
    t.reason = s.reason ∨ t.reason = .haltTrap ∨ t.reason = .inputExhausted := by
  obtain ⟨u, hu, -, -, -, -, -, ⟨-, hreason, -⟩ | ⟨rfl, -⟩ | ⟨rfl, -⟩⟩ := performService_cases svc s <;>
    cases h.symm.trans hu
  · exact .inl hreason
  · exact .inr (.inl rfl)
  · exact .inr (.inr rfl)

theorem performService_control {svc : Service} {s t : State} (h : performService config svc s = .next t) :
    KeepsControlOrRaises s t := by
  obtain ⟨u, hu, -, -, -, hstarted, -, ⟨hrun, hreason, hpending⟩ | ⟨hraise, -⟩ | ⟨hraise, -⟩⟩ :=
    performService_cases svc s <;> cases h.symm.trans hu
  · exact .inl ⟨hrun, hreason, hstarted, hpending.imp_right fun ⟨hsome, hblocks⟩ => ⟨svc, hblocks, hsome⟩⟩
  · exact .inr ⟨.haltTrap, .inl rfl, hraise⟩
  · exact .inr ⟨.inputExhausted, .inr (.inr (.inr rfl)), hraise⟩

/-! ### What an instruction leaves -/

theorem exec_mem_of_storeTarget_none {i : Instr} {s t : State} (h : exec i s = .next t) (hnone : storeTarget s i = none) :
    t.mem = s.mem := by
  cases runs_of_exec h with
  | store hsome => cases hnone.symm.trans hsome
  | service svc hsvc => exact performService_mem hsvc
  | _ => rfl

theorem exec_pc {i : Instr} {s t : State} (h : exec i s = .next t) (hpc : writesPc s i = false) : t.pc = s.pc := by
  cases runs_of_exec h with
  | jump _ hwrites | call _ hwrites => cases hpc.symm.trans hwrites
  | service svc hsvc => exact (performService_frame hsvc).1
  | _ => rfl

theorem exec_control {i : Instr} {s t : State} (h : exec i s = .next t) : KeepsControlOrRaises s t := by
  cases runs_of_exec h with
  | unimplemented => exact .inr ⟨_, .inr (.inl ⟨_, rfl⟩), rfl⟩
  | unknownVector => exact .inr ⟨_, .inr (.inr (.inl ⟨_, rfl⟩)), rfl⟩
  | service svc hsvc => exact performService_control hsvc
  | _ => exact .inl ⟨rfl, rfl, rfl, .inl rfl⟩

/-! ### What a store and a step do to memory -/

theorem exec_word_of_storeTarget {i : Instr} {s t : State} {ea : Word} {r : Reg} (h : exec i s = .next t)
    (htarget : storeTarget s i = some (ea, r)) : t.word ea = s.reg r ∧ SameMemoryBut ea s t := by
  obtain ⟨u, hu, hword, -, -, -, hrest, -⟩ := exec_stores_register htarget
  cases h.symm.trans hu
  exact ⟨hword, hrest⟩

/-- A step that is not a store to `ea` leaves the word there. -/
theorem step_word {s t : State} {ea : Word} (h : step s = .next t) (hno : ¬ storesNext ea s) : t.word ea = s.word ea := by
  rcases step_cases h with ⟨rfl, -⟩ | ⟨svc, -, -, -, hsvc⟩ | ⟨hready, hexec⟩
  · rfl
  · exact word_congr (performService_mem hsvc) ea
  · cases htarget : storeTarget { s with pc := s.pc + 1 } (decode (s.word s.pc)) with
    | none => exact word_congr (exec_mem_of_storeTarget_none hexec htarget) ea
    | some target =>
      obtain ⟨a, r⟩ := target
      have hne : ea ≠ a := by
        rintro rfl
        exact hno ⟨hready, r, htarget⟩
      exact (exec_word_of_storeTarget hexec htarget).2 ea hne

theorem reachesWithoutStore_word {ea : Word} {t u : State} (h : ReachesWithoutStore ea t u) : u.word ea = t.word ea := by
  induction h with
  | here => rfl
  | step u v _ hno hstep ih => exact (step_word hstep hno).trans ih

/-! ### The program counter and the reason -/

theorem writesPc_withPc (p : Word) (s : State) (i : Instr) : writesPc { s with pc := p } i = writesPc s i := by
  cases i <;> rfl

theorem toNat_add_one (v : Word) : (v + 1).toNat = (v.toNat + 1) % 65536 := BitVec.toNat_add v 1

/-- A step writes the reason only where it halts a running machine (10_state.md R20). -/
theorem step_reason {s t : State} (h : step s = .next t) : t.reason = s.reason ∨ s.run = .running ∧ t.run = .halted := by
  rcases step_cases h with ⟨rfl, -⟩ | ⟨svc, hrun, -, -, hsvc⟩ | ⟨⟨hrun, -⟩, hexec⟩
  · exact .inl rfl
  · rcases performService_control hsvc with ⟨-, hreason, -⟩ | ⟨e, -, rfl⟩
    · exact .inl hreason
    · exact .inr ⟨hrun, rfl⟩
  · rcases exec_control hexec with ⟨-, hreason, -⟩ | ⟨e, -, rfl⟩
    · exact .inl hreason
    · exact .inr ⟨hrun, rfl⟩

end Sys2Proof.Machine
end

section
/-! PROOF. The statements on what a step writes (10_state.md R14, 20_memory.md R36, R42). -/

namespace Sys2Proof.Proofs

open Sys2Proof.Machine

/-- Settles O10: the fetch of the decided store cannot abort, and `withFetchWord` places the word it reads. -/
theorem stepRunsTheDecodedInstruction : Obligations.StepRunsTheDecodedInstruction := by
  refine ⟨fun s => step_of_ready, fun s w => ?_⟩
  have hready : (s.withFetchWord 16 w.toNat).Ready := ⟨rfl, rfl, rfl⟩
  have hword : (s.withFetchWord 16 w.toNat).word s.pc = w := by
    show (s.mem.write s.pc.toNat (BitVec.ofNat 16 w.toNat)).read s.pc.toNat = w
    rw [read_write, if_pos rfl, BitVec.ofNat_toNat, BitVec.setWidth_eq]
  refine ⟨hready, (step_of_ready hready).trans ?_⟩
  show exec (decode ((s.withFetchWord 16 w.toNat).word s.pc)) _ = _
  rw [hword]
  rfl

/-- Settles O14: `step` looks at the run state and at `Start` before anything else. -/
theorem stoppedMachineIsFrozen : Obligations.StoppedMachineIsFrozen := by
  refine ⟨fun s h => ?_, fun s => step_of_aborted⟩
  rcases h with hhalted | ⟨hrunning, hstart⟩
  · exact step_of_halted hhalted
  · exact step_of_not_started hrunning hstart

/-- Settles O17: `pc` is advanced by the fetch, and an instruction that does not write it, or that halts, leaves it there. -/
theorem pcAdvance : Obligations.PcAdvance := by
  intro s hready
  obtain ⟨t, hexec, -⟩ := exec_runs (decode (s.word s.pc)) { s with pc := s.pc + 1 }
  refine ⟨t, (step_of_ready hready).trans hexec, fun hpc => ?_, fun hhalted => ?_⟩
  · rw [exec_pc hexec ((writesPc_withPc ..).trans hpc)]
    exact toNat_add_one s.pc
  · have hrunning : s.run = .running := hready.1
    obtain ⟨e, -, rfl⟩ := eq_raise_of_exec_halted (s := { s with pc := s.pc + 1 }) hrunning hexec hhalted
    exact toNat_add_one s.pc

/-- Settles O22: a form with a `storeTarget` writes that one word, every other leaves memory as data. -/
theorem onlyStoresWriteMemory : Obligations.OnlyStoresWriteMemory := fun _ _ _ hexec =>
  ⟨fun _ _ => exec_word_of_storeTarget hexec, fun hnone => word_congr (exec_mem_of_storeTarget_none hexec hnone)⟩

/-- Settles O23: the stored word survives every step that is not a store to it, and the fetch reads it. -/
theorem storeIsSeenByTheFetch : Obligations.StoreIsSeenByTheFetch := by
  intro i s t u ea r hexec htarget hreach hready hpc
  have hword : u.word u.pc = s.reg r := by
    rw [hpc, reachesWithoutStore_word hreach, (exec_word_of_storeTarget hexec htarget).1]
  rw [step_of_ready hready, hword, hpc]

/-- Settles O24: each of the three sums adds a sign-extended field. -/
theorem effectiveAddressesWrap : Obligations.EffectiveAddressesWrap :=
  ⟨fun s => toNat_add_sext16 (by decide) s.pc, fun s => toNat_add_sext16 (by decide) s.pc,
    fun s b => toNat_add_sext16 (by decide) (s.reg b)⟩

end Sys2Proof.Proofs
end

section
/-! SUPPORT. The invariant (10_state.md R16, R19, R20; 20_memory.md R30): it is about memory, the flags and the control fields
only, and every step and every move of the environment keeps it. -/

namespace Sys2Proof.Machine

/-! ### The parts of the invariant -/

theorem ccLegal_of_oneFlag {cc : BitVec 3} (h : oneFlag cc) : ccLegal cc = true := by
  rcases h with rfl | rfl | rfl <;> decide

theorem reasonFits_halted {e : Reason} (h : HaltingReason e) : reasonFits .halted e = true := by
  rcases h with rfl | ⟨op, rfl⟩ | ⟨v, rfl⟩ | rfl <;> rfl

theorem pendingFits_iff {s : State} : pendingFits s = true ↔
    ∀ svc, s.pending = some svc → blocks svc = true ∧ s.started = true ∧ s.run = .running := by
  rcases s.pending.eq_none_or_eq_some with hp | ⟨svc, hp⟩ <;> simp [pendingFits, hp, and_assoc]

theorem pendingFits_of_none {s : State} (h : s.pending = none) : pendingFits s = true :=
  pendingFits_iff.mpr fun _ hsome => nomatch h.symm.trans hsome

theorem pendingFits_of_some {s : State} {svc : Service} (h : s.pending = some svc) (hblocks : blocks svc = true)
    (hstarted : s.started = true) (hrun : s.run = .running) : pendingFits s = true :=
  pendingFits_iff.mpr fun _ hsome => by
    cases h.symm.trans hsome
    exact ⟨hblocks, hstarted, hrun⟩

/-- `Start` is a condition of a suspension, so that giving it spoils none. -/
theorem pendingFits_withStarted {s : State} (h : pendingFits s = true) :
    pendingFits { s with started := true } = true :=
  pendingFits_iff.mpr fun svc hsome => by
    obtain ⟨hblocks, -, hrun⟩ := pendingFits_iff.mp h svc hsome
    exact ⟨hblocks, rfl, hrun⟩

/-! ### The invariant after a step -/

theorem exec_mem_wf {i : Instr} {s t : State} (h : exec i s = .next t) (hwf : s.mem.wf) : t.mem.wf := by
  cases htarget : storeTarget s i with
  | none => rwa [exec_mem_of_storeTarget_none h htarget]
  | some target =>
    obtain ⟨ea, r⟩ := target
    cases h.symm.trans (exec_of_storeTarget htarget)
    exact wf_write s.mem ea.toNat (s.reg r) hwf ea.isLt

theorem step_mem_wf {s t : State} (h : step s = .next t) (hwf : s.mem.wf) : t.mem.wf := by
  rcases step_cases h with ⟨rfl, -⟩ | ⟨svc, -, -, -, hsvc⟩ | ⟨-, hexec⟩
  · exact hwf
  · rwa [performService_mem hsvc]
  · exact exec_mem_wf hexec hwf

theorem step_ccLegal {s t : State} (h : step s = .next t) (hlegal : ccLegal s.cc = true) : ccLegal t.cc = true := by
  rcases step_cc h with hsame | hone
  · rwa [hsame]
  · exact ccLegal_of_oneFlag hone

/-- The control part of the invariant. -/
def ControlFits (s : State) : Prop := s.run ≠ .aborted ∧ reasonFits s.run s.reason = true ∧ pendingFits s = true

/-- A running machine in no suspended service keeps the control part when it goes on, is suspended, or halts. -/
theorem controlFits_of_keepsControlOrRaises {s t : State} (hready : s.Ready) (hfits : reasonFits s.run s.reason = true)
    (h : KeepsControlOrRaises s t) : ControlFits t := by
  obtain ⟨hrunning, hstarted, hnone⟩ := hready
  rcases h with ⟨hrun, hreason, hstart, hpending⟩ | ⟨e, he, rfl⟩
  · have hrun' : t.run = .running := hrun.trans hrunning
    refine ⟨by simp [hrun'], by rwa [hrun, hreason], ?_⟩
    rcases hpending with hsame | ⟨svc, hblocks, hsome⟩
    · exact pendingFits_of_none (hsame.trans hnone)
    · exact pendingFits_of_some hsome hblocks (hstart.trans hstarted) hrun'
  · exact ⟨by simp, reasonFits_halted he, pendingFits_of_none hnone⟩

theorem step_controlFits {s t : State} (h : step s = .next t) (hfits : ControlFits s) : ControlFits t := by
  have ⟨_, hreason, _⟩ := hfits
  rcases step_cases h with ⟨rfl, -⟩ | ⟨svc, hrun, hstarted, -, hsvc⟩ | ⟨hready, hexec⟩
  · exact hfits
  · exact controlFits_of_keepsControlOrRaises (s := { s with pending := none }) ⟨hrun, hstarted, rfl⟩ hreason
      (performService_control hsvc)
  · exact controlFits_of_keepsControlOrRaises (s := { s with pc := s.pc + 1 }) hready hreason (exec_control hexec)

theorem step_answers {s : State} (h : s.run ≠ .aborted) : ∃ t, step s = .next t := by
  cases hrun : s.run with
  | aborted => exact absurd hrun h
  | halted => exact ⟨s, step_of_halted hrun⟩
  | running =>
    cases hstarted : s.started with
    | false => exact ⟨s, step_of_not_started hrun hstarted⟩
    | true =>
      cases hpending : s.pending with
      | none =>
        obtain ⟨t, hexec, -⟩ := exec_runs (decode (s.word s.pc)) { s with pc := s.pc + 1 }
        exact ⟨t, (step_of_ready ⟨hrun, hstarted, hpending⟩).trans hexec⟩
      | some svc =>
        obtain ⟨t, hsvc, -⟩ := performService_cases svc { s with pending := none }
        exact ⟨t, (step_of_suspended hrun hstarted hpending).trans hsvc⟩

/-! ### The moves of the environment -/

theorem hostLoad_of_loading {s : State} (hstart : s.started = false) (hrun : s.run = .running) (cfg : Config)
    (addr v : Word) : hostLoad cfg addr v s = store cfg addr v s := by
  rw [hostLoad, hstart, hrun]
  rfl

theorem hostLoad_of_stopped {s : State} (hstart : s.started = false) (hrun : s.run ≠ .running) (cfg : Config)
    (addr v : Word) : hostLoad cfg addr v s = .next s := by
  rw [hostLoad, hstart, if_neg Bool.false_ne_true, if_neg hrun]

theorem hostLoad_of_started {s : State} (hstart : s.started = true) (cfg : Config) (addr v : Word) :
    hostLoad cfg addr v s = .refused .loadAfterStart := by
  rw [hostLoad, if_pos hstart]

/-- A load that answers a next state writes its word, aborts, or leaves a machine that is not running as it is
(70_reset_and_hazards.md R162). -/
theorem hostLoad_cases {cfg : Config} {addr v : Word} {s t : State} (h : hostLoad cfg addr v s = .next t) :
    t = { s with mem := s.mem.write addr.toNat v } ∨
    (s.run = .running ∧ cfg.memWords ≤ addr.toNat ∧ t = abort addr s) ∨ t = s := by
  rcases s.started.eq_false_or_eq_true with hstart | hstart
  · simp [hostLoad_of_started hstart] at h
  · by_cases hrun : s.run = .running
    · rw [hostLoad_of_loading hstart hrun, store, memWrite] at h
      by_cases hin : addr.toNat < cfg.memWords
      · rw [if_pos hin] at h
        cases h
        exact .inl rfl
      · rw [if_neg hin] at h
        cases h
        exact .inr (.inl ⟨hrun, Nat.le_of_not_lt hin, rfl⟩)
    · rw [hostLoad_of_stopped hstart hrun] at h
      cases h
      exact .inr (.inr rfl)

/-- With the decided store a load never aborts. -/
theorem hostLoad_config_cases {addr v : Word} {s t : State} (h : hostLoad config addr v s = .next t) :
    t = { s with mem := s.mem.write addr.toNat v } ∨ t = s := by
  rcases hostLoad_cases h with hwrite | ⟨-, hout, -⟩ | hsame
  · exact .inl hwrite
  · exact absurd addr.isLt (Nat.not_lt.mpr hout)
  · exact .inr hsame

theorem hostStart_cases {s t : State} (h : hostStart s = .next t) : t = { s with started := true } := by
  rw [hostStart] at h
  split at h <;> cases h
  rfl

theorem hostDeliver_cases {cfg : Config} {u : Word} {s t : State} (h : hostDeliver cfg u s = .next t) :
    t = { s with input := s.input ++ [unitOf cfg u] } := by
  rw [hostDeliver] at h
  split at h <;> cases h
  rfl

end Sys2Proof.Machine
end

section
/-! PROOF. The statements on the invariant, the reason, and the moves of the environment (10_state.md R19, R20,
70_reset_and_hazards.md R160 to R164). -/

namespace Sys2Proof.Proofs

open Sys2Proof.Machine

/-- Settles O11: part by part, a step keeps the canonical form, the flags it does not set, and the control fields unless it
suspends or halts. -/
theorem stepKeepsInvariant : Obligations.StepKeepsInvariant := by
  rintro s ⟨hmem, hcc, hrun, hfits⟩
  obtain ⟨t, hstep⟩ := step_answers hrun
  exact ⟨t, hstep, step_mem_wf hstep hmem, step_ccLegal hstep hcc, step_controlFits hstep ⟨hrun, hfits⟩⟩

/-- Settles O12: memory is empty at reset, and the run state is Running with no reason. -/
theorem resetMeetsInvariant : Obligations.ResetMeetsInvariant :=
  ⟨wf_reset, rfl, by decide, rfl, rfl⟩

/-- Settles O13: a load keeps the canonical form; the other moves but reset leave what the invariant is about, or give
`Start`, which no suspension forbids. -/
theorem hostMovesKeepInvariant : Obligations.HostMovesKeepInvariant := by
  rintro m s t ⟨hmem, hcc, hrun, hreason, hpending⟩ h
  cases m with
  | reset =>
    cases h
    exact resetMeetsInvariant
  | load addr v =>
    rcases hostLoad_config_cases h with rfl | rfl
    · exact ⟨wf_write s.mem addr.toNat v hmem addr.isLt, hcc, hrun, hreason, hpending⟩
    · exact ⟨hmem, hcc, hrun, hreason, hpending⟩
  | start =>
    obtain rfl := hostStart_cases h
    exact ⟨hmem, hcc, hrun, hreason, pendingFits_withStarted hpending⟩
  | deliver u =>
    obtain rfl := hostDeliver_cases h
    exact ⟨hmem, hcc, hrun, hreason, hpending⟩
  | close =>
    cases h
    exact ⟨hmem, hcc, hrun, hreason, hpending⟩

/-- Settles O27: the fields of the state after reset; the streams are the environment's. -/
theorem resetState : Obligations.ResetState := by
  have hregs : ∀ r, State.reset.reg r = 0x0000 := fun r => Vector.getElem_replicate r.isLt
  exact ⟨⟨hregs, rfl, rfl, fun _ => rfl, rfl, rfl⟩,
    fun s => ⟨hregs, rfl, rfl, fun _ => rfl, rfl, rfl, rfl, rfl, ⟨rfl, rfl⟩, rfl⟩⟩

/-- Settles O28: `Start` and the run state decide whether a load is refused, a store, or nothing. -/
theorem loadWritesOneWordBeforeStart : Obligations.LoadWritesOneWordBeforeStart := by
  refine ⟨fun addr v s hstart hrun => ?_, fun cfg addr v s hstart hrun hout => ?_,
    fun cfg addr v s hstart hrun => hostLoad_of_stopped hstart hrun cfg addr v,
    fun cfg addr v s hstart => hostLoad_of_started hstart cfg addr v⟩
  · rw [hostLoad_of_loading hstart hrun]
    exact ⟨_, store_config .., by rw [word_write, if_pos rfl], onlyWord_write addr v s⟩
  · rw [hostLoad_of_loading hstart hrun]
    exact store_aborts hout v s

/-- Settles O58: the reason is written by `raise` in a step, by `abort` in a load, and by reset. -/
theorem reasonIsWrittenOnce : Obligations.ReasonIsWrittenOnce := by
  refine ⟨fun s t h hne => (step_reason h).resolve_left hne, fun cfg addr v s t h hne => ?_, fun m s t h => ?_⟩
  · rcases hostLoad_cases h with rfl | ⟨hrun, -, rfl⟩ | rfl
    · exact absurd rfl hne
    · exact ⟨hrun, rfl⟩
    · exact absurd rfl hne
  · cases m with
    | reset =>
      cases h
      exact ⟨fun _ => rfl, fun hne => absurd rfl hne⟩
    | load addr v =>
      rcases hostLoad_config_cases h with rfl | rfl <;> exact ⟨nofun, fun _ => ⟨rfl, rfl⟩⟩
    | start =>
      obtain rfl := hostStart_cases h
      exact ⟨nofun, fun _ => ⟨rfl, rfl⟩⟩
    | deliver u =>
      obtain rfl := hostDeliver_cases h
      exact ⟨nofun, fun _ => ⟨rfl, rfl⟩⟩
    | close =>
      cases h
      exact ⟨nofun, fun _ => ⟨rfl, rfl⟩⟩

end Sys2Proof.Proofs
end

section
/-! SUPPORT. The canonical form of memory as the set of its cells (20_memory.md R30; log entry 3), and the fetch from a smaller
store (R33). -/

namespace Sys2Proof.Machine

/-- A canonical memory reads a listed address as its cell says. -/
theorem read_of_mem {m : Memory} (hwf : m.wf) {c : Cell} (hc : c ∈ m) : m.read c.1 = c.2 := by
  obtain ⟨hrising, -⟩ := hwf
  induction m with
  | nil => cases hc
  | cons d m ih =>
    obtain ⟨hbelow, hrest⟩ := List.pairwise_cons.mp hrising
    rw [read_cons]
    rcases List.mem_cons.mp hc with rfl | hmem
    · exact if_pos rfl
    · rw [if_neg (Nat.ne_of_gt (hbelow c hmem)), ih hmem hrest]

/-- An address that does not read as an unlisted one is listed. -/
theorem mem_of_read_ne {m : Memory} {a : Nat} (h : m.read a ≠ Memory.unlisted) : (a, m.read a) ∈ m := by
  induction m with
  | nil => exact absurd (read_nil a) h
  | cons d m ih =>
    rw [read_cons] at h ⊢
    by_cases ha : a = d.1
    · simp [ha]
    · rw [if_neg ha] at h ⊢
      exact List.mem_cons_of_mem d (ih h)

/-- A cell of a canonical memory is in every memory that reads alike. -/
theorem mem_of_read_eq {m m' : Memory} (hwf : m.wf) (h : ∀ a : Word, m.read a.toNat = m'.read a.toNat) {c : Cell}
    (hc : c ∈ m) : c ∈ m' := by
  obtain ⟨haddr, hlisted⟩ : c.1 < addressSpace ∧ c.2 ≠ Memory.unlisted := hwf.2 c hc
  have hread : m'.read c.1 = c.2 := by
    have halike := h (BitVec.ofNat 16 c.1)
    have hmod : c.1 % 2 ^ 16 = c.1 := Nat.mod_eq_of_lt haddr
    rw [BitVec.toNat_ofNat, hmod] at halike
    rw [← halike, read_of_mem hwf hc]
  have hmem := mem_of_read_ne (hread ▸ hlisted)
  rwa [hread] at hmem

theorem fetchThen_aborts {cfg : Config} {s : State} (h : cfg.memWords ≤ s.pc.toNat) (k : Word → State → Result) :
    ∃ t, fetchThen cfg s k = .next t ∧ AbortedAt s.pc t :=
  readThen_aborts h s _

end Sys2Proof.Machine
end

section
/-! SUPPORT. The words that report an error (30_encoding.md R60) by their class, and what no row of the TRAP class writes
(44_trap.md R124). -/

namespace Sys2Proof

theorem opmap_eq_iff {w : Word} {c : OpClass} :
    config.opmap (opcode w) = c ↔ w.toNat / 4096 = (config.opcodeOf c).toNat := by
  rw [← toNat_opcode, BitVec.toNat_inj]
  exact ⟨fun h => by rw [← h, opcodeOf_opmap], fun h => by rw [h, opmap_opcodeOf]⟩

/-- The words of RTI and RES. -/
theorem opmap_unimplemented_iff (w : Word) : config.opmap (opcode w) = .rti ∨ config.opmap (opcode w) = .res ↔
    (0x8000 ≤ w.toNat ∧ w.toNat ≤ 0x8FFF) ∨ (0xD000 ≤ w.toNat ∧ w.toNat ≤ 0xDFFF) := by
  have hrti : (config.opcodeOf .rti).toNat = 8 := rfl
  have hres : (config.opcodeOf .res).toNat = 13 := rfl
  rw [opmap_eq_iff, opmap_eq_iff, hrti, hres]
  omega

/-- The words of TRAP. -/
theorem opmap_trap_iff (w : Word) : config.opmap (opcode w) = .trap ↔ 0xF000 ≤ w.toNat := by
  have htrap : (config.opcodeOf .trap).toNat = 15 := rfl
  rw [opmap_eq_iff, htrap]
  omega

theorem opmap_of_decode_eq {w : Word} {i : Instr} (h : decode w = i) : config.opmap (opcode w) = i.opClass := by
  rw [← opClass_decode, h]

/-- A word decodes to the class row exactly where its vector selects no service. -/
theorem decode_eq_trap_iff {w v : Word} : decode w = .trap v ↔
    config.opmap (opcode w) = .trap ∧ serviceOf config (trapVector w) = none ∧ trapVector w = v := by
  constructor
  · intro h
    have hclass : config.opmap (opcode w) = .trap := opmap_of_decode_eq h
    rw [decode_of_opmap_trap hclass] at h
    rcases decodeTrap_cases (trapVector w) with ⟨svc, -, hrow⟩ | ⟨hnone, hrow⟩
    · cases svc <;> cases hrow.symm.trans h
    · cases hrow.symm.trans h
      exact ⟨hclass, hnone, rfl⟩
  · rintro ⟨hclass, hnone, rfl⟩
    rw [decode_of_opmap_trap hclass, decodeTrap, hnone]

end Sys2Proof

namespace Sys2Proof.Machine

/-- RTI and RES report the opcode of their word. -/
theorem exec_decode_of_unimplemented {w : Word} (h : config.opmap (opcode w) = .rti ∨ config.opmap (opcode w) = .res)
    (s : State) : exec (decode w) s = .next (raise (.unimplementedInstruction (opcode w)) s) := by
  rw [← opcodeOf_opmap (opcode w)]
  rcases h with h | h
  · rw [decode_of_opmap_rti h, h]; rfl
  · rw [decode_of_opmap_res h, h]; rfl

/-- The instructions that report one of the two errors of R60 of a machine that has reported nothing. -/
theorem exec_illegal {i : Instr} {s t : State} (h : exec i s = .next t) (hnone : s.reason = .none) :
    ((∃ op, t.reason = .unimplementedInstruction op) → i = .rti ∨ i = .res) ∧
    ∀ v, t.reason = .unimplementedTrapVector v → i = .trap v := by
  cases runs_of_exec h with
  | unimplemented hclass => exact ⟨fun _ => hclass, nofun⟩
  | unknownVector hv => exact ⟨nofun, fun _ hreason => by cases hreason; rfl⟩
  | service svc hsvc =>
    rcases performService_reason hsvc with hr | hr | hr <;> simp [hr, hnone]
  | _ => simp [hnone]

/-- No row of the TRAP class writes `pc`, the flags, register 7 or memory, by the tables of R12, R14, R18 and R36. -/
theorem tables_of_opClass_trap {i : Instr} (h : i.opClass = .trap) (s : State) :
    writesPc s i = false ∧ flagDest i = none ∧ 7 ∉ regsWritten i ∧ storeTarget s i = none := by
  cases i with
  | trap v =>
    refine ⟨rfl, rfl, ?_, rfl⟩
    rw [regsWritten]
    cases serviceOf config v with
    | none => exact List.not_mem_nil
    | some svc => cases svc <;> decide
  | trapGetc | trapOut | trapPuts | trapIn | trapPutsp | trapHalt | trapInu16 | trapOutu16 =>
    exact ⟨rfl, rfl, by decide, rfl⟩
  | _ => cases h

end Sys2Proof.Machine
end

section
/-! PROOF. The statements on memory, on the words that report an error, on JSRR and on the choice of a service (20_memory.md
R33, 30_encoding.md R60, 43_control.md R114, 44_trap.md R124). -/

namespace Sys2Proof.Proofs

open Sys2Proof.Machine

/-- Settles O25: the bound is tested before every access, and 65536 bounds every address. -/
theorem outOfBoundsAborts : Obligations.OutOfBoundsAborts := by
  refine ⟨fun cfg addr v s k hout => ⟨memRead_of_outOfBounds hout s.mem, memWrite_of_outOfBounds hout s.mem v,
    readThen_aborts hout s k, store_aborts hout v s, ?_⟩, fun m addr v => ⟨memRead_config m addr, _,
    memWrite_config m addr v, by rw [read_write, if_pos rfl], fun a ha => by rw [read_write, if_neg ha]⟩⟩
  rintro rfl f
  exact fetchThen_aborts hout f

/-- Settles O26: both lists are strictly rising and have the same cells. -/
theorem canonicalMemoriesAreEqual : Obligations.CanonicalMemoriesAreEqual := by
  intro m m' hwf hwf' h
  have hrefl : Std.Irrefl fun c d : Cell => c.1 < d.1 := ⟨fun c => Nat.lt_irrefl c.1⟩
  exact List.Pairwise.eq_of_mem_iff hwf.1 hwf'.1 fun c =>
    ⟨mem_of_read_eq hwf h, mem_of_read_eq hwf' fun a => (h a).symm⟩

/-- Settles O9: the opcode alone decides RTI and RES, the opcode and the vector the class row of TRAP, and no other form
raises either reason. -/
theorem illegalWordsHalt : Obligations.IllegalWordsHalt := by
  intro w s _ hnone
  obtain ⟨t, hexec, -⟩ := exec_runs (decode w) s
  obtain ⟨hinstr, hvector⟩ := exec_illegal hexec hnone
  refine ⟨t, hexec, fun hw => ?_, fun ⟨hw, hv⟩ => ?_, fun hr => ?_, fun ⟨v, hr⟩ => ?_⟩
  · cases hexec.symm.trans (exec_decode_of_unimplemented ((opmap_unimplemented_iff w).mpr hw) s)
    exact ⟨rfl, rfl⟩
  · rw [decode_eq_trap_iff.mpr ⟨(opmap_trap_iff w).mpr hw, hv, rfl⟩, exec_trap, hv] at hexec
    cases hexec
    exact ⟨rfl, rfl⟩
  · exact (opmap_unimplemented_iff w).mp ((hinstr hr).imp opmap_of_decode_eq opmap_of_decode_eq)
  · obtain ⟨hclass, hv, -⟩ := decode_eq_trap_iff.mp (hvector v hr)
    exact ⟨(opmap_trap_iff w).mp hclass, hv⟩

/-- Settles O42: the link is written before the base is read, so that base 7 is the return address. -/
theorem jsrrReadsTheBaseAfterTheLink : Obligations.JsrrReadsTheBaseAfterTheLink := by
  refine ⟨fun _ h => decode_jsr_of_callMask h rfl, fun b s => ⟨_, rfl, reg_seven_of_call _ s, fun hb => ?_, ?_,
    onlyPcAndLink_call _ s⟩⟩
  · exact (saveReturn_reg s b).trans (if_neg hb)
  · rintro rfl
    exact (saveReturn_reg s 7).trans (if_pos rfl)

/-- Settles O45: the vector selects the row, the class row runs what the row of its vector runs, and the tables of what is
written leave out `pc`, the flags, register 7 and memory for the whole class. -/
theorem trapSelectsTheService : Obligations.TrapSelectsTheService := by
  refine ⟨fun w svc hw hvector => ?_, fun w hw hvector => ?_, fun svc s => ?_, fun i s t hclass hexec => ?_⟩
  · rw [decode_of_opmap_trap (opmap_of_mask hw), trapVector, trapvecWidth_config, ← hvector, decodeTrap_trapvec]
  · exact decode_eq_trap_iff.mpr ⟨opmap_of_mask hw, serviceOf_eq_none hvector, rfl⟩
  · rw [exec_trap, serviceOf_trapvec, exec_serviceInstr]
  · obtain ⟨hpc, hflags, hlink, hstore⟩ := tables_of_opClass_trap hclass s
    exact ⟨exec_pc hexec hpc, exec_cc_of_flagDest_none hexec hflags, exec_reg_of_notMem hexec hlink,
      word_congr (exec_mem_of_storeTarget_none hexec hstore)⟩

end Sys2Proof.Proofs
end

section
/-! SUPPORT. The services that consume input (44_trap.md R122; 40_execution_cycle.md R79), the services that write a string
(44_trap.md R127, R129; 70_reset_and_hazards.md R168), and decimal text (44_trap.md R123). -/

namespace Sys2Proof.Machine

/-! ### A service that consumes input -/

section

variable {s : State} (svc : Service) (k : Word → State → State)

theorem consumeUnit_of_unit {u : Word} {rest : List Word} (h : s.input = u :: rest) :
    consumeUnit svc k s = .next (k u { s with input := rest }) := by
  rw [consumeUnit, inputUnit, h]

theorem consumeUnit_of_exhausted (h : s.input = []) (hclosed : s.inputClosed = true) :
    consumeUnit svc k s = .next (raise .inputExhausted s) := by
  rw [consumeUnit, inputUnit, h, hclosed]
  rfl

theorem consumeUnit_of_waiting (h : s.input = []) (hopen : s.inputClosed = false) :
    consumeUnit svc k s = .next (suspend svc s) := by
  rw [consumeUnit, inputUnit, h, hopen]
  rfl

end

/-- The effect of a service that consumes input on its unit (44_trap.md R125, R128, R131). -/
def unitEffect (svc : Service) (u : Word) (s : State) : State :=
  match svc with
  | .getc => s.setReg 0 (zext16 (lowByte u))
  | .inChar => emit [.char (lowByte u)] (s.setReg 0 (zext16 (lowByte u)))
  | .inu16 => s.setReg 0 u
  | .out | .puts | .putsp | .halt | .outu16 => s

theorem unitEffect_input (svc : Service) (u : Word) (s : State) : (unitEffect svc u s).input = s.input := by
  cases svc <;> rfl

theorem exec_of_inputService {i : Instr} {svc : Service} (h : inputService i = some svc) (s : State) :
    exec i s = consumeUnit svc (unitEffect svc) s := by
  cases i <;> cases h <;> rfl

theorem performService_of_inputService {i : Instr} {svc : Service} (h : inputService i = some svc) (s : State) :
    performService config svc s = consumeUnit svc (unitEffect svc) s := by
  cases i <;> cases h <;> rfl

theorem exec_of_unit {i : Instr} {svc : Service} (h : inputService i = some svc) {s : State} {u : Word} {rest : List Word}
    (hin : s.input = u :: rest) : exec i s = .next (unitEffect svc u { s with input := rest }) :=
  (exec_of_inputService h s).trans (consumeUnit_of_unit svc _ hin)

/-- On an exhausted source the service halts the machine and changes nothing else (60_exceptions.md R144). -/
theorem exec_halts_of_exhausted {i : Instr} {svc : Service} (h : inputService i = some svc) (s : State) (hin : s.input = [])
    (hclosed : s.inputClosed = true) : ∃ t, exec i s = .next t ∧ HaltedWith .inputExhausted s t :=
  ⟨_, (exec_of_inputService h s).trans (consumeUnit_of_exhausted svc _ hin hclosed), haltedWith_raise .inputExhausted s⟩

theorem reg_zero_setReg (v : Word) (s : State) : (s.setReg 0 v).reg 0 = v := (reg_setReg ..).trans (if_pos rfl)

theorem onlyReg0AndStreams_unitEffect {i : Instr} {svc : Service} (h : inputService i = some svc) (u : Word)
    (rest : List Word) (s : State) : OnlyReg0AndStreams s (unitEffect svc u { s with input := rest }) := by
  have hregs (v : Word) : SameRegsBut 0 s (State.setReg { s with input := rest } 0 v) := fun _ hr =>
    (reg_setReg ..).trans (if_neg hr)
  cases i <;> cases h <;> exact ⟨hregs _, rfl, rfl, fun _ => rfl, ⟨rfl, rfl, rfl, rfl⟩, rfl⟩

/-- The character GETC and IN take from a unit, as the number in register 0. -/
theorem toNat_zext16_lowByte (u : Word) : (zext16 (lowByte u)).toNat = u.toNat % 256 := by
  rw [zext16, BitVec.toNat_setWidth_of_le (by decide), lowByte, toNat_extract]
  exact congrArg (· % 256) (Nat.div_one _)

/-! ### A service that writes a string -/

theorem flatMap_putsChars {α : Type} (l : List α) (f : α → Word) :
    (l.flatMap fun j => putsChars (f j)) = l.map fun j => .char (lowByte (f j)) :=
  List.flatMap_pure_eq_map (fun j => OutEvent.char (lowByte (f j))) l

theorem writeString_completes (svc : Service) (chars : Word → List OutEvent) {s : State} {k : Nat} (hk : k < 65536)
    (h0 : s.word (s.reg 0 + BitVec.ofNat 16 k) = 0) (h : ∀ j < k, s.word (s.reg 0 + BitVec.ofNat 16 j) ≠ 0) :
    ∃ t, writeString config svc chars s = .next t ∧ OnlyOutput s t ∧
      t.output = s.output ++ (List.range k).flatMap fun j => chars (s.word (s.reg 0 + BitVec.ofNat 16 j)) :=
  ⟨_, writeString_ended svc chars s k hk h0 h, onlyOutput_emit _ s, emit_output s _⟩

/-- A string that runs out of a smaller store aborts after the characters before the address out of bounds. -/
theorem writeString_aborts (svc : Service) (chars : Word → List OutEvent) {cfg : Config} {s : State} {k : Nat}
    (hk : k < 65536) (hout : cfg.memWords ≤ (s.reg 0 + BitVec.ofNat 16 k).toNat)
    (h : ∀ j < k, (s.reg 0 + BitVec.ofNat 16 j).toNat < cfg.memWords ∧ s.word (s.reg 0 + BitVec.ofNat 16 j) ≠ 0) :
    ∃ t, writeString cfg svc chars s = .next t ∧ AbortedAt (s.reg 0 + BitVec.ofNat 16 k) t ∧
      t.output = s.output ++ (List.range k).flatMap fun j => chars (s.word (s.reg 0 + BitVec.ofNat 16 j)) := by
  refine ⟨abort (s.reg 0 + BitVec.ofNat 16 k) (emit _ s), ?_, abortedAt_abort _ _, rfl⟩
  rw [writeString, scanString_outOfBounds cfg s.mem chars k addressSpace (s.reg 0) hk hout h]
  rfl

theorem wordCharacters_ne_nil {svc : Service} (h : svc = .puts ∨ svc = .putsp) (w : Word) :
    wordCharacters svc w ≠ [] := by
  rcases h with rfl | rfl <;> exact List.cons_ne_nil _ _

/-- The characters of the 65536 words from `x[0]`. -/
def lapText (svc : Service) (s : State) : List OutEvent :=
  (List.range 65536).flatMap fun j => wordCharacters svc (s.word (s.reg 0 + BitVec.ofNat 16 j))

theorem lapText_ne_nil {svc : Service} (h : svc = .puts ∨ svc = .putsp) (s : State) : lapText svc s ≠ [] := fun hnil =>
  wordCharacters_ne_nil h _ (List.flatMap_eq_nil_iff.mp hnil 0 (List.mem_range.mpr (by decide)))

theorem performService_lap {svc : Service} (h : svc = .puts ∨ svc = .putsp) {s : State} (hfull : ∀ a, s.word a ≠ 0) :
    performService config svc s = .next (suspend svc (emit (lapText svc s) s)) := by
  rcases h with rfl | rfl
  · exact writeString_unended .puts putsChars s hfull
  · rw [lapText, ← funext putspChars_eq]
    exact writeString_unended .putsp putspChars s hfull

/-- A lap writes the text of the lap and marks the service, whether or not the mark stood before. -/
theorem writesLap_suspend (svc : Service) (s : State) (p : Option Service) :
    WritesLap svc s (suspend svc (emit (lapText svc s) { s with pending := p })) :=
  ⟨rfl, rfl, rfl, rfl, rfl, fun _ => rfl, rfl, rfl, fun _ => rfl, ⟨rfl, rfl⟩⟩

theorem length_lt_of_lap {svc : Service} (h : svc = .puts ∨ svc = .putsp) (s : State) :
    s.output.length < (s.output ++ lapText svc s).length := by
  rw [List.length_append]
  exact Nat.lt_add_of_pos_right (List.length_pos_of_ne_nil (lapText_ne_nil h s))

/-! ### Decimal text (44_trap.md R123) -/

/-- The number that a text of ASCII digits stands for in base 10. -/
def decimalValue (text : List Byte) : Nat := text.foldl (fun n b => 10 * n + (b.toNat - 0x30)) 0

theorem decimalValue_append (text : List Byte) (b : Byte) :
    decimalValue (text ++ [b]) = 10 * decimalValue text + (b.toNat - 0x30) := by
  rw [decimalValue, List.foldl_append]
  rfl

theorem toNat_digit {d : Nat} (h : d < 10) : (BitVec.ofNat 8 (0x30 + d)).toNat = 0x30 + d := by
  rw [BitVec.toNat_ofNat]
  omega

theorem decimalDigits_of_lt {fuel n : Nat} (h : n < 10) :
    decimalDigits (fuel + 1) n = [BitVec.ofNat 8 (0x30 + n)] := if_pos h

theorem decimalDigits_of_ge {fuel n : Nat} (h : ¬ n < 10) :
    decimalDigits (fuel + 1) n = decimalDigits fuel (n / 10) ++ [BitVec.ofNat 8 (0x30 + n % 10)] := if_neg h

theorem length_decimalDigits_le (fuel n : Nat) : (decimalDigits fuel n).length ≤ fuel := by
  induction fuel generalizing n with
  | zero => exact Nat.le_refl 0
  | succ fuel ih =>
    by_cases h : n < 10
    · rw [decimalDigits_of_lt h]
      exact Nat.succ_pos fuel
    · rw [decimalDigits_of_ge h, List.length_append]
      exact Nat.succ_le_succ (ih (n / 10))

theorem decimalDigits_ascii (fuel n : Nat) : ∀ b ∈ decimalDigits fuel n, 0x30 ≤ b.toNat ∧ b.toNat ≤ 0x39 := by
  have hdigit {d : Nat} (hd : d < 10) {b : Byte} (hb : b ∈ [BitVec.ofNat 8 (0x30 + d)]) :
      0x30 ≤ b.toNat ∧ b.toNat ≤ 0x39 := by
    obtain rfl := List.mem_singleton.mp hb
    rw [toNat_digit hd]
    omega
  induction fuel generalizing n with
  | zero => exact fun _ hb => nomatch hb
  | succ fuel ih =>
    intro b hb
    by_cases h : n < 10
    · exact hdigit h (decimalDigits_of_lt h ▸ hb)
    · rw [decimalDigits_of_ge h] at hb
      rcases List.mem_append.mp hb with hb | hb
      · exact ih (n / 10) b hb
      · exact hdigit (Nat.mod_lt n (by decide)) hb

/-- With fuel for every digit, the text stands for the number. -/
theorem decimalValue_decimalDigits {fuel n : Nat} (h : n < 10 ^ fuel) : decimalValue (decimalDigits fuel n) = n := by
  induction fuel generalizing n with
  | zero => exact (Nat.lt_one_iff.mp h).symm
  | succ fuel ih =>
    rw [pow_succ] at h
    by_cases hn : n < 10
    · rw [decimalDigits_of_lt hn, ← List.nil_append [_], decimalValue_append, toNat_digit hn]
      exact (Nat.zero_add _).trans (Nat.add_sub_cancel_left 0x30 n)
    · rw [decimalDigits_of_ge hn, decimalValue_append, ih (Nat.div_lt_of_lt_mul (by omega)),
        toNat_digit (Nat.mod_lt n (by decide))]
      omega

theorem decimalDigits_ne_nil (fuel n : Nat) : decimalDigits (fuel + 1) n ≠ [] := by
  by_cases hn : n < 10
  · rw [decimalDigits_of_lt hn]
    exact List.cons_ne_nil _ _
  · rw [decimalDigits_of_ge hn]
    exact List.append_ne_nil_of_right_ne_nil _ (List.cons_ne_nil _ _)

/-- With fuel for every digit, the text of a number other than 0 does not begin with 0. -/
theorem head_decimalDigits {fuel n : Nat} (hpos : 0 < n) (h : n < 10 ^ fuel) :
    ∃ b, (decimalDigits fuel n).head? = some b ∧ b ≠ 0x30 := by
  induction fuel generalizing n with
  | zero => exact absurd hpos (Nat.not_lt.mpr (Nat.le_of_lt_succ h))
  | succ fuel ih =>
    rw [pow_succ] at h
    by_cases hn : n < 10
    · refine ⟨_, by rw [decimalDigits_of_lt hn, List.head?_cons], fun hzero => ?_⟩
      have hnat : 0x30 = 0x30 + n := by rw [← toNat_digit hn, hzero]; rfl
      omega
    · obtain ⟨b, hhead, hb⟩ := ih (Nat.div_pos (Nat.le_of_not_lt hn) (by decide)) (Nat.div_lt_of_lt_mul (by omega))
      exact ⟨b, by rw [decimalDigits_of_ge hn, List.head?_append, hhead, Option.some_or], hb⟩

end Sys2Proof.Machine
end

section
/-! PROOF. The statements on the trap services (44_trap.md R123, R125, R127 to R131, 40_execution_cycle.md R79,
70_reset_and_hazards.md R168). -/

namespace Sys2Proof.Proofs

open Sys2Proof.Machine

/-- Settles O47: GETC is a service that consumes a unit, and its effect is on register 0. -/
theorem getcReadsACharacter : Obligations.GetcReadsACharacter := by
  refine ⟨fun _ h => decode_service_of_trapMask (svc := .getc) h rfl rfl, fun u rest s hin => ?_,
    exec_halts_of_exhausted rfl⟩
  refine ⟨_, exec_of_unit rfl hin, ?_, rfl, rfl, onlyReg0AndStreams_unitEffect (i := .trapGetc) rfl u rest s⟩
  rw [unitEffect, reg_zero_setReg, toNat_zext16_lowByte]

/-- Settles O50: IN is a service that consumes a unit, and its effect is on register 0 and the output sink. -/
theorem inEchoesTheCharacter : Obligations.InEchoesTheCharacter := by
  refine ⟨fun _ h => decode_service_of_trapMask (svc := .inChar) h rfl rfl, fun u rest s hin => ?_,
    exec_halts_of_exhausted rfl⟩
  refine ⟨_, exec_of_unit rfl hin, ?_, rfl, rfl, onlyReg0AndStreams_unitEffect (i := .trapIn) rfl u rest s⟩
  rw [unitEffect, emit_reg, reg_zero_setReg, toNat_zext16_lowByte]

/-- Settles O53: INU16 is a service that consumes a unit, and its effect is on register 0. -/
theorem inu16ReadsANumber : Obligations.Inu16ReadsANumber := by
  refine ⟨fun _ h => decode_service_of_trapMask (svc := .inu16) h rfl rfl, fun u rest s hin => ?_,
    exec_halts_of_exhausted rfl⟩
  refine ⟨_, exec_of_unit rfl hin, ?_, rfl, rfl, onlyReg0AndStreams_unitEffect (i := .trapInu16) rfl u rest s⟩
  rw [unitEffect, reg_zero_setReg]

/-- Settles O49: the scan of PUTS, with one character a word. -/
theorem putsWritesTheString : Obligations.PutsWritesTheString := by
  refine ⟨fun _ h => decode_service_of_trapMask (svc := .puts) h rfl rfl, fun s k hk h0 h => ?_,
    fun cfg s himpl => ?_, fun cfg s k himpl hk hout h => ?_⟩
  · obtain ⟨t, hrun, hframe, htext⟩ := writeString_completes .puts putsChars hk h0 h
    exact ⟨t, hrun, hframe, htext.trans (by rw [flatMap_putsChars]; rfl)⟩
  · rw [servicePuts, himpl, if_neg Bool.false_ne_true]
  · obtain ⟨t, hrun, habort, htext⟩ := writeString_aborts .puts putsChars hk hout h
    exact ⟨t, by rw [servicePuts, if_pos himpl, hrun], habort, htext.trans (by rw [flatMap_putsChars]; rfl)⟩

/-- Settles O51: the scan of PUTSP, with one or two characters a word. -/
theorem putspWritesThePackedString : Obligations.PutspWritesThePackedString := by
  refine ⟨fun _ h => decode_service_of_trapMask (svc := .putsp) h rfl rfl, fun s k hk h0 h => ?_,
    fun cfg s himpl => ?_, fun cfg s k himpl hk hout h => ?_⟩
  · obtain ⟨t, hrun, hframe, htext⟩ := writeString_completes .putsp putspChars hk h0 h
    exact ⟨t, hrun, hframe, htext.trans (by rw [funext putspChars_eq]; rfl)⟩
  · rw [servicePutsp, himpl, if_neg Bool.false_ne_true]
  · obtain ⟨t, hrun, habort, htext⟩ := writeString_aborts .putsp putspChars hk hout h
    exact ⟨t, by rw [servicePutsp, if_pos himpl, hrun], habort, htext.trans (by rw [funext putspChars_eq]; rfl)⟩

/-- Settles O52: HALT raises, and a Halted machine takes no step. -/
theorem haltStopsTheMachine : Obligations.HaltStopsTheMachine :=
  ⟨fun _ h => decode_service_of_trapMask (svc := .halt) h rfl rfl,
    fun s => ⟨raise .haltTrap s, rfl, haltedWith_raise .haltTrap s, step_of_halted (raise_run s .haltTrap)⟩⟩

/-- Settles O55: a 16-bit value has at most five digits, so that five are fuel enough. -/
theorem decimalTextIsTheValue : Obligations.DecimalTextIsTheValue := by
  intro v
  have hlt : v.toNat < 10 ^ 5 := Nat.lt_trans v.isLt (by decide)
  refine ⟨List.length_pos_of_ne_nil (decimalDigits_ne_nil 4 v.toNat), length_decimalDigits_le 5 v.toNat,
    decimalDigits_ascii 5 v.toNat, fun hlong hzero => ?_, decimalValue_decimalDigits hlt⟩
  have hpos : 0 < v.toNat := by
    refine Nat.pos_of_ne_zero fun h0 => ?_
    rw [eventBytes, h0, decimalDigits_of_lt (by decide)] at hlong
    exact absurd hlong (by decide)
  obtain ⟨b, hhead, hb⟩ := head_decimalDigits hpos hlt
  exact hb (Option.some.inj (hhead.symm.trans hzero))

/-- Settles O56: a suspended step is the same `consumeUnit` as the instruction, on the state with the mark taken off. -/
theorem blockingReadWaits : Obligations.BlockingReadWaits := by
  intro s svc hready hservice hin hopen
  have ⟨hrun, hstarted, hnone⟩ := hready
  have hagain (us : List Word) (closed : Bool) :
      step { s with pc := s.pc + 1, pending := some svc, input := us, inputClosed := closed } =
        consumeUnit svc (unitEffect svc) { s with pc := s.pc + 1, input := us, inputClosed := closed } := by
    rw [step_of_suspended (by exact hrun) (by exact hstarted) rfl, performService_of_inputService hservice, ← hnone]
  refine ⟨_, ?first, rfl, ?again, fun u rest => ⟨unitEffect svc u { s with pc := s.pc + 1, input := rest }, ?onUnit,
    unitEffect_input svc u _, ?asInstr⟩, ?onClose⟩
  case first =>
    rw [step_of_ready hready, exec_of_inputService hservice]
    exact consumeUnit_of_waiting _ _ hin hopen
  case again => exact (hagain s.input s.inputClosed).trans (consumeUnit_of_waiting _ _ hin hopen)
  case onUnit => exact (hagain (u :: rest) s.inputClosed).trans (consumeUnit_of_unit _ _ rfl)
  case asInstr => exact exec_of_unit hservice rfl
  case onClose => exact (hagain s.input true).trans (consumeUnit_of_exhausted _ _ hin rfl)

/-- Settles O57: a scan of the whole address space meets no terminator, so that it writes a lap and the service goes on. -/
theorem endlessStringNeverHalts : Obligations.EndlessStringNeverHalts := by
  intro s svc hsvc hfull
  refine ⟨⟨_, (exec_serviceInstr svc s).trans (performService_lap hsvc hfull), writesLap_suspend svc s s.pending,
    length_lt_of_lap hsvc s⟩, fun hrun hstarted hpending => ?_⟩
  exact ⟨_, (step_of_suspended hrun hstarted hpending).trans (performService_lap hsvc hfull),
    writesLap_suspend svc s none, length_lt_of_lap hsvc s⟩

end Sys2Proof.Proofs
end
